-- ==== Sys2Proof/Word.lean ====
section
/-! DEFINITION. The widths of the block's values (spec/00_scope.md R7) and the passage between a register value and
the integer it stands for (R8: arithmetic is on the integers, a value is narrowed when it is written). -/

namespace Sys2Proof

/-- A byte on the serial line or a command byte (R7). -/
abbrev Byte := BitVec 8

/-- A state-latch register value, read as an unsigned integer in 0 .. 65535 (R6 `W`, R7). -/
abbrev Word := BitVec 16

/-- The integer a register value stands for (R8). -/
abbrev Word.int (w : Word) : Int := (w.toNat : Int)

end Sys2Proof
end

