-- ==== Sys2Proof/Config.lean ====
section
/-! DEFINITION. The implementation parameters of spec/00_scope.md R6: the literals the spec takes as normative (R5), each
under its own name, and the OPEN parameters and free values, which are constants without a body so that a theorem about
the model holds for every value of them. What HOST will do is a parameter too (spec/10_state.md R37). The feedback event
and HOST's items stand here because the parameters speak of them. -/

namespace Sys2Proof

/-- The kind carried by a stream-fault event (R78, R115 codes 3 and 4). -/
inductive FaultKind where
  | endOfStream
  | readError
deriving DecidableEq, Repr

/-- The structured messages of spec/41_command_interpreter.md R78. -/
inductive FeedbackEvent where
  | width (pw : Word)
  | widthBounds (pw min max : Word)
  | min (min : Word)
  | max (max : Word)
  | digit (d : Fin 10) (pw min max : Word)
  | invalid (b : Byte)
  | streamFault (kind : FaultKind)
deriving DecidableEq, Repr

/-- What HOST can offer on `rxd` (R67, R68, R74). -/
inductive HostItem where
  /-- leave the line at 1 for `n + 1` ticks -/
  | idle (n : Nat)
  /-- a frame of `b` whose stop bit is `stop` (a stop bit of 0 is a framing error, R58) -/
  | frame (b : Byte) (stop : Bool)
  /-- a break: the line at 0 for a frame time and `n + 1` ticks more (R67) -/
  | lineBreak (n : Nat)
  /-- end-of-stream in place of a frame (R66): one frame time with the line at 1, at whose end it is delivered -/
  | eos
deriving DecidableEq, Repr

namespace Config

/-- Reset value of PW (R6, R17). -/
def PW_DEFAULT : Word := 1500
/-- Reset value of MIN (R6, R18). -/
def MIN_DEFAULT : Word := 0
/-- Reset value of MAX (R6, R19). -/
def MAX_DEFAULT : Word := 65535
/-- Reset value of INC (R6, R20). -/
def INC_DEFAULT : Word := 50
/-- Reset value of OVH (R6, R21). -/
def OVH_DEFAULT : Word := 500
/-- The largest representable register value (R6). -/
def REP_MAX : Int := 65535
/-- Refresh wait per iteration in microseconds (R6, R105). -/
def T_WAIT_US : Nat := 20000
/-- UART data bits of a frame (R6, R32); there is no parity bit. -/
def DATA_BITS : Nat := 8
/-- UART stop bits of a frame (R6, R32). -/
def STOP_BITS : Nat := 1
/-- Frame bits: one start bit, the data bits and the stop bits, so bit indices are 0 to 9 (R57). -/
def FRAME_BITS : Nat := 1 + DATA_BITS + STOP_BITS
/-- Divisor of the digit interpolation (R87). -/
def DIGIT_DIVISOR : Int := 9
/-- Divisor of the centre command (R82). -/
def CENTRE_DIVISOR : Int := 2

/-- OPEN: one less than the clock cycles in a microsecond (R6 `F_CLK_HZ`, a positive multiple of 1 MHz). -/
opaque cycUsLessOne : Nat
/-- Clock cycles in one microsecond (R13); every positive number is admitted. -/
def CYC_US : Nat := cycUsLessOne + 1
/-- The block clock (R6): a positive multiple of 1 MHz. -/
def F_CLK_HZ : Nat := CYC_US * 1000000

/-- OPEN: one less than the ticks in a clock cycle. -/
opaque clkTicksLessOne : Nat
/-- Ticks in one clock cycle. DESIGN CHOICE (log entry 7): the model's time goes in ticks, of which a clock cycle and a
bit-time are each a whole number, so that both are exact whatever `BAUD` is. -/
def CLK_TICKS : Nat := clkTicksLessOne + 1
/-- Ticks in one microsecond, which is `CYC_US` clock cycles (R13). -/
def US_TICKS : Nat := CYC_US * CLK_TICKS

/-- The ticks in a bit-time, for `cyc` clock cycles in a microsecond, `clk` ticks in a clock cycle and a choice `k`: as `k`
varies, exactly the whole numbers for which `BAUD > 10000` (R6, R72). -/
def bitTicksOf (cyc clk k : Nat) : Nat := k % (100 * cyc * clk - 1) + 1
/-- The bit rate in bits per second of `bit` ticks in a bit-time (R6). -/
def baudOf (cyc clk bit : Nat) : Rat := ((cyc * 1000000 * clk : Nat) : Rat) / (bit : Rat)

/-- OPEN: selects the bit-time (R6 `BAUD`). -/
opaque bitTicksChoice : Nat
/-- Ticks in one bit-time (R57). -/
def BIT_TICKS : Nat := bitTicksOf CYC_US CLK_TICKS bitTicksChoice
/-- The bit rate (R6): a bit-time is `1 / BAUD` seconds. It ranges over every rational number above 10000. -/
def BAUD : Rat := baudOf CYC_US CLK_TICKS BIT_TICKS

/-- OPEN: HOST's input on `rxd` (R37, R68): the items it offers, in order, each after the one before. The sequence is infinite,
or ends at the first index that gives none. -/
opaque hostItem : Nat → Option HostItem
/-- OPEN: HOST's input on `rst` (R130): its level in each tick. -/
opaque rstLevel : Nat → Bool

/-- OPEN: the bytes transmitted for a feedback event (R6, R78). -/
opaque FB_ENCODE : FeedbackEvent → List Byte
/-- OPEN: the bytes sent during startup (R6, R133). -/
opaque STARTUP_TX : List Byte
/-- OPEN: the startup time in microseconds beyond sending `STARTUP_TX` (R6, R133). -/
opaque T_STARTUP_US : Nat
/-- OPEN: the bound of the sequencer's own time in an iteration, in microseconds (R145). -/
opaque T_SEQ_MAX : Nat

/-- Ticks of the refresh wait (R13, R105). -/
def T_WAIT_TICKS : Nat := T_WAIT_US * US_TICKS
/-- Ticks of the startup hold (R13, R133). -/
def T_STARTUP_TICKS : Nat := T_STARTUP_US * US_TICKS
/-- Ticks of the bound on the sequencer's own time (R13, R145). -/
def T_SEQ_MAX_TICKS : Nat := T_SEQ_MAX * US_TICKS

/-- Free value: the draw for the sequencer's own time in one iteration (R145, log entry 5). -/
opaque ownTimeFree : Nat → Nat
/-- Free value: whether RXU's store comes before SEQ's access to RXH in the same clock cycle (R46, log entry 3). -/
opaque rxuFirst : Nat → Bool

/-- `t_seq` of an iteration in ticks: any value in 0 .. `T_SEQ_MAX_TICKS` (R145). -/
def ownTime (k : Nat) : Nat := ownTimeFree k % (T_SEQ_MAX_TICKS + 1)

end Config

end Sys2Proof
end

