-- ==== Sys2Proof/Syntax.lean ====
section
/-! DEFINITION. The commands of spec/30_encoding.md R52, one constructor per row of spec/opcode_table.json. -/

namespace Sys2Proof

/-- A decoded command byte (R52). The ten digit rows of the opcode table are ten constructors. -/
inductive Instr where
  /-- `,` decrement (R80) -/
  | dec
  /-- `.` increment (R81) -/
  | inc
  /-- space, centre (R82) -/
  | ctr
  /-- carriage return, reset to defaults (R84) -/
  | rst
  /-- `<` latch MIN (R85) -/
  | smin
  /-- `>` latch MAX (R86) -/
  | smax
  /-- `0` to `9`, go to digit position (R87) -/
  | dig0
  | dig1
  | dig2
  | dig3
  | dig4
  | dig5
  | dig6
  | dig7
  | dig8
  | dig9
  /-- any other byte (R88) -/
  | inv (b : Byte)
deriving DecidableEq, Repr

end Sys2Proof
end

