-- ==== Sys2Proof/WellFormed.lean ====
section
/-! DEFINITION. Which instructions stand for a byte: all but an invalid command that carries one of the sixteen command
bytes (spec/30_encoding.md R53, R54: the invalid class is the complement of the sixteen). -/

namespace Sys2Proof

/-- The sixteen valid command bytes (R52). -/
def commandBytes : List Byte :=
  [0x2C, 0x2E, 0x20, 0x0D, 0x3C, 0x3E, 0x30, 0x31, 0x32, 0x33, 0x34, 0x35, 0x36, 0x37, 0x38, 0x39]

/-- An instruction is well formed unless it is an invalid command carrying a valid command byte (R54). -/
def Instr.wellFormed : Instr → Bool
  | .inv b => !commandBytes.contains b
  | .dec | .inc | .ctr | .rst | .smin | .smax => true
  | .dig0 | .dig1 | .dig2 | .dig3 | .dig4 | .dig5 | .dig6 | .dig7 | .dig8 | .dig9 => true

end Sys2Proof
end

