-- ==== Sys2Proof/Decode.lean ====
section
/-! DEFINITION. The decoder of spec/30_encoding.md R50 to R54, total on any bytes, and the encoder, written from the same
table. Every byte is a command (R55), so the only rejection is of a missing byte. -/

namespace Sys2Proof

/-- Why a byte string is no instruction. -/
inductive Reject where
  /-- there is no byte to decode: a command is exactly one byte (R50) -/
  | noByte
deriving DecidableEq, Repr

/-- What the decoder answers: an instruction with the bytes after it, or a rejection by name. -/
inductive Decoded where
  | instr (i : Instr) (rest : List Byte)
  | rejected (r : Reject)
deriving DecidableEq, Repr

/-- The digit command of a digit (R87). -/
def Instr.digit (d : Fin 10) : Instr :=
  match d with
  | 0 => .dig0
  | 1 => .dig1
  | 2 => .dig2
  | 3 => .dig3
  | 4 => .dig4
  | 5 => .dig5
  | 6 => .dig6
  | 7 => .dig7
  | 8 => .dig8
  | 9 => .dig9

/-- The digit operand: `b[7:4] = 0b0011` and `b[3:0] <= 9` give `b[3:0]` (R51). -/
def digitOf (b : Byte) : Option (Fin 10) :=
  if b.extractLsb' 4 4 = 0b0011#4 then
    if h : (b.extractLsb' 0 4).toNat < 10 then some ⟨(b.extractLsb' 0 4).toNat, h⟩ else none
  else none

/-- `Decode` of R52: the rows in the source's order, then anything else (R53). -/
def decodeByte (b : Byte) : Instr :=
  if b = 0x2C then .dec
  else if b = 0x2E then .inc
  else if b = 0x20 then .ctr
  else if b = 0x0D then .rst
  else if b = 0x3C then .smin
  else if b = 0x3E then .smax
  else match digitOf b with
    | some d => .digit d
    | none => .inv b

/-- Decode the first command of a byte string: it is always one byte long (R50). -/
def decode : List Byte → Decoded
  | [] => .rejected .noByte
  | b :: rest => .instr (decodeByte b) rest

/-- The byte of a command (R52). -/
def encodeByte : Instr → Byte
  | .dec => 0x2C
  | .inc => 0x2E
  | .ctr => 0x20
  | .rst => 0x0D
  | .smin => 0x3C
  | .smax => 0x3E
  | .dig0 => 0x30
  | .dig1 => 0x31
  | .dig2 => 0x32
  | .dig3 => 0x33
  | .dig4 => 0x34
  | .dig5 => 0x35
  | .dig6 => 0x36
  | .dig7 => 0x37
  | .dig8 => 0x38
  | .dig9 => 0x39
  | .inv b => b

/-- The bytes of an instruction: exactly one (R50). -/
def encode (i : Instr) : List Byte := [encodeByte i]

/-- The instruction of an opcode-table row given as a number of bits and their value; a command has eight bits (R50). -/
def decodeTableWord (nbits w : Nat) : Option Instr :=
  if nbits = 8 then
    match decode [BitVec.ofNat 8 w] with
    | .instr i _ => some i
    | .rejected _ => none
  else none

end Sys2Proof
end

