-- ==== Sys2Proof/Machine/State.lean ====
section
/-! DEFINITION. The block's state as plain data (spec/10_state.md), the reasons a step can stop, and the machine right
after reset (R36). -/

namespace Sys2Proof.Machine

/-- The state latch, ServoState (R16 to R21). -/
structure Latch where
  /-- PW (R17) -/
  pw : Word
  /-- MIN (R18) -/
  min : Word
  /-- MAX (R19) -/
  max : Word
  /-- INC (R20) -/
  inc : Word
  /-- OVH (R21) -/
  ovh : Word
deriving DecidableEq, Repr

/-- LS, the loop state (R26, R103). -/
inductive LoopState where
  | running
  | halted
deriving DecidableEq, Repr

/-- An item the read can return (R28). -/
inductive RxItem where
  /-- a data byte that has fully arrived -/
  | byte (b : Byte)
  /-- end-of-stream (R66) -/
  | eos
  /-- a read error (R67) -/
  | err
deriving DecidableEq, Repr

/-- An event of the observation trace (R33). -/
inductive Event where
  /-- the byte began on `txd` -/
  | txByte (b : Byte)
  /-- the decoder or the stream-fault path produced this event -/
  | feedback (ev : FeedbackEvent)
  /-- one pulse slot with an active phase of `d` microseconds -/
  | pulse (d : Word)
  /-- the sequencer waited `t` microseconds -/
  | waited (t : Nat)
  /-- LS became HALTED -/
  | halted
deriving DecidableEq, Repr

/-- Where SEQ is in the startup of R133. -/
inductive StartupPos where
  /-- nothing done yet -/
  | enter
  /-- bytes of `STARTUP_TX` not yet handed to the transmitter -/
  | sending (bs : List Byte)
  /-- the hold, with the ticks already spent in it -/
  | holding (elapsed : Nat)
deriving DecidableEq, Repr

/-- Where SEQ is in POLL (R104, R106, R107, R121). -/
inductive PollPos where
  /-- about to call `RxAvailable` -/
  | sample
  /-- nothing was available; ticks of the sequencer's own time still to pass before PULSE (R145) -/
  | nothing (own : Nat)
  /-- an item is available and is read at once (R138); the own time to pass after the read (R145) -/
  | read (own : Nat)
  /-- `Eos` or `Err` was read; the own time still to pass before the stream fault is raised (R145) -/
  | faulted (kind : FaultKind) (own : Nat)
  /-- the stream fault was raised; bytes of the diagnostic message not yet handed to the transmitter (R121) -/
  | faultSending (bs : List Byte)
deriving DecidableEq, Repr

/-- Where SEQ is in FEEDBACK (R109). -/
inductive FeedbackPos where
  /-- about to perform `Emit(ev)` -/
  | emit
  /-- bytes of the message not yet handed to the transmitter -/
  | sending (bs : List Byte)
deriving DecidableEq, Repr

/-- Where SEQ is in PULSE (R97, R110). -/
inductive PulsePos where
  /-- about to call `PwmPulse(DLY())` -/
  | enter
  /-- inside the high phase of `PwmPulse(d)` -/
  | high (d : Word)
deriving DecidableEq, Repr

/-- PH, the sequencer phase (R27): its seven values, each with the locals of that phase's pseudocode in R104. -/
inductive Phase where
  | startup (p : StartupPos)
  | wait
  | poll (p : PollPos)
  /-- the byte to dispatch, and the own time still to pass before the decoder is applied (R145) -/
  | dispatch (b : Byte) (own : Nat)
  | feedback (p : FeedbackPos)
  | pulse (p : PulsePos)
  | stopped
deriving DecidableEq, Repr

/-- The seven names of R27 alone. -/
inductive PhaseName where
  | STARTUP
  | WAIT
  | POLL
  | DISPATCH
  | FEEDBACK
  | PULSE
  | STOPPED
deriving DecidableEq, Repr

/-- What RXU is doing with the line (R65, R67). -/
inductive RxLine where
  /-- waiting for a falling edge -/
  | idle
  /-- inside a frame: the data bits sampled so far, and the index of the frame bit now on the line -/
  | frame (data : Byte) (i : Fin 10)
  /-- the stop bit was 0: the line is ignored until it returns to 1 (R67) -/
  | heldLow
deriving DecidableEq, Repr

/-- A stretch of the line during which its level does not change. -/
inductive LineSeg where
  /-- one bit-time at this level -/
  | bit (v : Bool)
  /-- `n + 1` ticks at this level -/
  | hold (v : Bool) (n : Nat)
  /-- one bit-time at 1, at whose end HOST delivers end-of-stream -/
  | eosBit
deriving DecidableEq, Repr

/-- What stands outside the block: the two input ports HOST drives and what HOST is going to do (R37, R68, R74, R130). What it
does beyond the fixed items and levels is the free input of Config. -/
structure Env where
  /-- port `rst` (R15) -/
  rst : Bool
  /-- levels of `rst` in the ticks to come that are fixed -/
  rstPlan : List Bool
  /-- where the levels go on in `Config.rstLevel` after them; none: they stay 0 -/
  rstMore : Option Nat
  /-- port `rxd` (R15) -/
  rxd : Bool
  /-- items that are fixed and that HOST has not begun to offer -/
  items : List HostItem
  /-- where HOST goes on in `Config.hostItem` after them; none: it offers nothing more -/
  more : Option Nat
  /-- the rest of the item being offered; its head is on the line -/
  line : List LineSeg
  /-- ticks spent in the head of `line` -/
  lineCtr : Nat
deriving DecidableEq, Repr

/-- The state of the block, of HOST beside it, and the model's own clock and free-value counter. -/
structure State where
  /-- the state latch (R16) -/
  latch : Latch
  /-- LS (R26) -/
  ls : LoopState
  /-- PH (R27) -/
  ph : Phase
  /-- `ev` of R104: the event of the command just applied, until FEEDBACK emits it -/
  fb : Option FeedbackEvent
  /-- RXH (R28) -/
  rxh : Option RxItem
  /-- RXU's shift state (R65) -/
  rxu : RxLine
  /-- RXU's bit-time counter (R34), in ticks -/
  rxBitCtr : Nat
  /-- items completed and not yet offered to RXH, oldest first (R46) -/
  rxDone : List RxItem
  /-- TXH (R30) -/
  txh : Option (Byte × Fin 10)
  /-- TXU's bit-time counter (R34), in ticks -/
  txBitCtr : Nat
  /-- PWM_OUT (R31) -/
  pwmOut : Bool
  /-- the refresh-wait counter (R34), in ticks: `CLK_TICKS` of them count one clock cycle -/
  waitCtr : Nat
  /-- the pulse counter (R34), in ticks -/
  pulseCtr : Nat
  /-- the observation trace, oldest first (R33) -/
  trace : List Event
  /-- the model's own: ticks since the run began -/
  now : Nat
  /-- the model's own: the counter the free values of Config are applied to -/
  free : Nat
  /-- HOST -/
  env : Env
deriving DecidableEq, Repr

/-- Reasons a step stops with a fault. There is none: the spec gives every state of the block a next step (R88, R111,
R121, R142), and the stream fault is a transition of the machine, not a stop of the model. -/
inductive Fault where
deriving DecidableEq, Repr

/-- Reasons a step is refused. -/
inductive Refusal where
  /-- raised by an arm of `exec` that has no meaning yet, none in this model; safe -/
  | notModelled (mnemonic : String)
deriving DecidableEq, Repr

/-- The startup defaults of the latch (R83). -/
def Latch.defaults : Latch where
  pw := Config.PW_DEFAULT
  min := Config.MIN_DEFAULT
  max := Config.MAX_DEFAULT
  inc := Config.INC_DEFAULT
  ovh := Config.OVH_DEFAULT

/-- HOST with any input to come: `rst` just released, the line idle at 1 (R37, R131, log entry 2). -/
def Env.start : Env where
  rst := false
  rstPlan := []
  rstMore := some 0
  rxd := true
  items := []
  more := some 0
  line := []
  lineCtr := 0

/-- HOST with nothing to come. -/
def Env.quiet : Env := { Env.start with rstMore := none, more := none }

/-- The machine right after reset (R36, R129, R131). -/
def State.reset : State where
  latch := .defaults
  ls := .running
  ph := .startup .enter
  fb := none
  rxh := none
  rxu := .idle
  rxBitCtr := 0
  rxDone := []
  txh := none
  txBitCtr := 0
  pwmOut := false
  waitCtr := 0
  pulseCtr := 0
  trace := []
  now := 0
  free := 0
  env := .start

end Sys2Proof.Machine
end

