-- ==== Sys2Proof/Machine/Operands.lean ====
section
/-! DEFINITION. The arithmetic of the commands (spec/00_scope.md R8, R11, R12), exact on the integers, and the candidate
positions the commands compute from the latch (spec/41_command_interpreter.md R80 to R87). -/

namespace Sys2Proof.Machine

/-- `clamp`, with the lower bound tested first (R11). -/
def clamp (v lo hi : Int) : Int :=
  if v < lo then lo else if v > hi then hi else v

/-- `round_half_up(p, q)`: the integer nearest to `p / q`, a tie toward positive infinity (R12). `/` on `Int` rounds
toward negative infinity for the positive divisors used here. -/
def roundHalfUp (p q : Int) : Int := (2 * p + q) / (2 * q)

/-- The value of a register write (R8): every rule shows that `v` lies in 0 .. 65535. -/
def narrow (v : Int) : Word := BitVec.ofInt 16 v

/-- A candidate for PW brought into the bound range (R80, R81, R82, R87). -/
def Latch.bounded (l : Latch) (v : Int) : Word := narrow (clamp v l.min.int l.max.int)

/-- The candidate of `DEC`, which may be negative (R80). -/
def Latch.decCandidate (l : Latch) : Int := l.pw.int - l.inc.int

/-- The candidate of `INC`, which may exceed `REP_MAX` (R81). -/
def Latch.incCandidate (l : Latch) : Int := l.pw.int + l.inc.int

/-- The centre of the bound range, with no 16-bit wrap (R82). -/
def Latch.centre (l : Latch) : Int := roundHalfUp (l.min.int + l.max.int) Config.CENTRE_DIVISOR

/-- The position of a digit in the bound range, with an exact product (R87). -/
def Latch.digitPosition (l : Latch) (d : Fin 10) : Int :=
  l.min.int + roundHalfUp ((d.val : Int) * (l.max.int - l.min.int)) Config.DIGIT_DIVISOR

end Sys2Proof.Machine
end

