-- ==== Sys2Proof/Machine/Flags.lean ====
section
/-! DEFINITION. The values the spec derives from the state and does not store: the two status flags (spec/10_state.md
R29), DLY (R22), the name of the phase (R27) and the output port `txd` (spec/30_encoding.md R57). No command sets a flag
(R77). -/

namespace Sys2Proof.Machine

/-- `RX_AVAIL` (R29, R61). -/
def State.rxAvail (s : State) : Bool := s.rxh.isSome

/-- `TX_EMPTY` (R29, R63). -/
def State.txEmpty (s : State) : Bool := s.txh.isNone

/-- DLY, a function of PW and OVH alone (R22). -/
def Latch.dly (l : Latch) : Word := if l.ovh < l.pw then l.pw - l.ovh else 0

/-- DLY of the current latch, never stale (R23). -/
def State.dly (s : State) : Word := s.latch.dly

/-- Which of the seven phases PH names (R27). -/
def Phase.name : Phase → PhaseName
  | .startup _ => .STARTUP
  | .wait => .WAIT
  | .poll _ => .POLL
  | .dispatch _ _ => .DISPATCH
  | .feedback _ => .FEEDBACK
  | .pulse _ => .PULSE
  | .stopped => .STOPPED

/-- Frame bit `i` of a byte: start bit 0, data bits least significant first, stop bit 1 (R57). -/
def frameBit (b : Byte) (i : Fin 10) : Bool :=
  if i.val = 0 then false else if i.val ≤ Config.DATA_BITS then b.getLsbD (i.val - 1) else true

/-- The level of port `txd`: the frame bit on the line, 1 when idle (R64). -/
def State.txd (s : State) : Bool :=
  match s.txh with
  | some (b, i) => frameBit b i
  | none => true

/-- The level of port `pwm_out` (R31, R98). -/
def State.pwmLevel (s : State) : Bool := s.pwmOut

end Sys2Proof.Machine
end

