-- ==== Sys2Proof/Machine/Ops.lean ====
section
/-! DEFINITION. The primitives of spec/00_scope.md R10 over the state, entering the stream fault and the halt
(spec/60_exceptions.md R121), and power-on reset, the only way out of it (R122, spec/70_reset_and_hazards.md R129). The
block has no addressable memory (spec/20_memory.md R38), so there are no memory operations. -/

namespace Sys2Proof.Machine

/-- What a step of the machine answers. -/
abbrev Outcome := Host.Outcome State Fault Refusal

/-- Append an event to the observation trace (R33). -/
def State.record (s : State) (e : Event) : State := { s with trace := s.trace ++ [e] }

/-- The effect of a command: the decoder's new latch, all five registers at once, and its event, which phase FEEDBACK
will emit (R76, R108). -/
def State.commit (s : State) (r : Latch × FeedbackEvent) : State := { s with latch := r.1, fb := some r.2 }

/-- `readByte`: the item in RXH, which is emptied; none where SEQ is held (R62). -/
def State.rxTake (s : State) : Option (RxItem × State) :=
  match s.rxh with
  | some item => some (item, { s with rxh := none })
  | none => none

/-- `writeByte` with the transmit buffer empty: the start bit goes on `txd` now (R63). -/
def State.txSend (s : State) (b : Byte) : State :=
  { s with txh := some (b, 0), txBitCtr := 0, trace := s.trace ++ [.txByte b] }

/-- The start of `Emit(ev)`: the event is recorded, and `resume` is where SEQ sends the bytes of the message (R10). -/
def State.emit (s : State) (ev : FeedbackEvent) (resume : List Byte → Phase) : State :=
  { s with trace := s.trace ++ [.feedback ev], ph := resume (Config.FB_ENCODE ev) }

/-- `raise StreamFault(kind)`, taken in phase POLL (R121): the diagnostic event is emitted; nothing is saved. -/
def State.raiseStreamFault (s : State) (kind : FaultKind) : State :=
  s.emit (.streamFault kind) (fun bs => .poll (.faultSending bs))

/-- The end of the stream-fault path, when the whole message is with the transmitter (R121). -/
def State.halt (s : State) : State :=
  { s with ls := .halted, ph := .stopped, trace := s.trace ++ [.halted] }

/-- Enter WAIT with the refresh-wait counter at 0 (R104, R105). -/
def State.startWait (s : State) : State := { s with ph := .wait, waitCtr := 0 }

/-- `PwmPulse(d)` up to its hold: the slot is recorded; for `d > 0` the line goes high, for `d = 0` there is no high
phase (R97, R101). -/
def State.pwmPulse (s : State) (d : Word) : State :=
  if 0 < d then
    { s with trace := s.trace ++ [.pulse d], pwmOut := true, pulseCtr := 0, ph := .pulse (.high d) }
  else
    { s with trace := s.trace ++ [.pulse d], ph := .wait, waitCtr := 0 }

/-- The end of the high phase (R97). -/
def State.pwmEnd (s : State) : State := { s with pwmOut := false, pulseCtr := 0, ph := .wait, waitCtr := 0 }

/-- Power-on reset of the block (R129, R130): every piece of its state takes its reset value and the trace is empty. What
HOST drives and plans, and the count of free values used, are not the block's and go on. -/
def State.powerOn (s : State) : State := { State.reset with free := s.free, env := s.env }

end Sys2Proof.Machine
end

