-- ==== Sys2Proof/Machine/Bounds.lean ====
section
/-! DEFINITION. The commands that move or restore the bounds, and the invalid command (spec/41_command_interpreter.md R84
to R86, R88). -/

namespace Sys2Proof.Machine

/-- `RST`: all five latch registers to the startup defaults, whatever they were (R83, R84). -/
def interpretRst (_l : Latch) : Latch × FeedbackEvent :=
  (.defaults, .widthBounds Config.PW_DEFAULT Config.MIN_DEFAULT Config.MAX_DEFAULT)

/-- `SMIN`: MIN becomes PW, with no correction (R85). -/
def interpretSmin (l : Latch) : Latch × FeedbackEvent := ({ l with min := l.pw }, .min l.pw)

/-- `SMAX`: MAX becomes PW, with no correction (R86). -/
def interpretSmax (l : Latch) : Latch × FeedbackEvent := ({ l with max := l.pw }, .max l.pw)

/-- `INV b`: the latch is unchanged and the byte is reported (R88, R116). -/
def interpretInv (b : Byte) (l : Latch) : Latch × FeedbackEvent := (l, .invalid b)

/-- `RST` (R84): the latch alone; no loop or UART state, and startup is not replayed (R135). -/
def execRst (s : State) : Outcome := .next (s.commit (interpretRst s.latch))

/-- `SMIN` (R85). -/
def execSmin (s : State) : Outcome := .next (s.commit (interpretSmin s.latch))

/-- `SMAX` (R86). -/
def execSmax (s : State) : Outcome := .next (s.commit (interpretSmax s.latch))

/-- `INV b` (R88). -/
def execInv (b : Byte) (s : State) : Outcome := .next (s.commit (interpretInv b s.latch))

end Sys2Proof.Machine
end

