-- ==== Sys2Proof/Machine/Nudge.lean ====
section
/-! DEFINITION. The relative commands (spec/41_command_interpreter.md R80, R81). -/

namespace Sys2Proof.Machine

/-- `DEC`: PW goes down by INC, floored at MIN and never skipped (R80). -/
def interpretDec (l : Latch) : Latch × FeedbackEvent :=
  let pw := l.bounded l.decCandidate
  ({ l with pw := pw }, .width pw)

/-- `INC`: PW goes up by INC, with the ceiling MAX; skipped when the candidate is above `REP_MAX` (R81). The skip test
comes first, against `REP_MAX` and not against MAX. -/
def interpretInc (l : Latch) : Latch × FeedbackEvent :=
  let pw := if l.incCandidate > Config.REP_MAX then l.pw else l.bounded l.incCandidate
  ({ l with pw := pw }, .width pw)

/-- `DEC` (R80). -/
def execDec (s : State) : Outcome := .next (s.commit (interpretDec s.latch))

/-- `INC` (R81). -/
def execInc (s : State) : Outcome := .next (s.commit (interpretInc s.latch))

end Sys2Proof.Machine
end

