-- ==== Sys2Proof/Machine/Position.lean ====
section
/-! DEFINITION. The absolute positions inside the bound range (spec/41_command_interpreter.md R82, R87). -/

namespace Sys2Proof.Machine

/-- `CTR`: the middle of the bound range, a tie rounded up (R82). -/
def interpretCtr (l : Latch) : Latch × FeedbackEvent :=
  let pw := l.bounded l.centre
  ({ l with pw := pw }, .widthBounds pw l.min l.max)

/-- `DIG d`: linear interpolation across the bound range, 0 at MIN and 9 at MAX (R87). -/
def interpretDigit (d : Fin 10) (l : Latch) : Latch × FeedbackEvent :=
  let pw := l.bounded (l.digitPosition d)
  ({ l with pw := pw }, .digit d pw l.min l.max)

/-- A digit command, shared by its ten rows (R87). -/
def execDigit (d : Fin 10) (s : State) : Outcome := .next (s.commit (interpretDigit d s.latch))

/-- `CTR` (R82). -/
def execCtr (s : State) : Outcome := .next (s.commit (interpretCtr s.latch))

/-- `DIG 0` (R87). -/
def execDig0 (s : State) : Outcome := execDigit 0 s
/-- `DIG 1` (R87). -/
def execDig1 (s : State) : Outcome := execDigit 1 s
/-- `DIG 2` (R87). -/
def execDig2 (s : State) : Outcome := execDigit 2 s
/-- `DIG 3` (R87). -/
def execDig3 (s : State) : Outcome := execDigit 3 s
/-- `DIG 4` (R87). -/
def execDig4 (s : State) : Outcome := execDigit 4 s
/-- `DIG 5` (R87). -/
def execDig5 (s : State) : Outcome := execDigit 5 s
/-- `DIG 6` (R87). -/
def execDig6 (s : State) : Outcome := execDigit 6 s
/-- `DIG 7` (R87). -/
def execDig7 (s : State) : Outcome := execDigit 7 s
/-- `DIG 8` (R87). -/
def execDig8 (s : State) : Outcome := execDigit 8 s
/-- `DIG 9` (R87). -/
def execDig9 (s : State) : Outcome := execDigit 9 s

end Sys2Proof.Machine
end

