-- ==== Sys2Proof/Machine/Dispatch.lean ====
section
/-! DEFINITION. One arm per command, each a call of its meaning (spec/41_command_interpreter.md R76). -/

namespace Sys2Proof.Machine

def exec (i : Instr) (s : State) : Host.Outcome State Fault Refusal :=
  match i with
  | .dec => Sys2Proof.Machine.execDec s
  | .inc => Sys2Proof.Machine.execInc s
  | .ctr => Sys2Proof.Machine.execCtr s
  | .rst => Sys2Proof.Machine.execRst s
  | .smin => Sys2Proof.Machine.execSmin s
  | .smax => Sys2Proof.Machine.execSmax s
  | .dig0 => Sys2Proof.Machine.execDig0 s
  | .dig1 => Sys2Proof.Machine.execDig1 s
  | .dig2 => Sys2Proof.Machine.execDig2 s
  | .dig3 => Sys2Proof.Machine.execDig3 s
  | .dig4 => Sys2Proof.Machine.execDig4 s
  | .dig5 => Sys2Proof.Machine.execDig5 s
  | .dig6 => Sys2Proof.Machine.execDig6 s
  | .dig7 => Sys2Proof.Machine.execDig7 s
  | .dig8 => Sys2Proof.Machine.execDig8 s
  | .dig9 => Sys2Proof.Machine.execDig9 s
  | .inv b => Sys2Proof.Machine.execInv b s

end Sys2Proof.Machine
end

