-- ==== Sys2Proof/Machine/Transport.lean ====
section
/-! DEFINITION. The UART's agents (spec/40_serial_transport.md R64 to R67) and HOST on the line (R68), each as what it does
in one tick, and RXU's store into RXH. A bit-time is `BIT_TICKS` ticks (log entry 7). -/

namespace Sys2Proof.Machine

/-- TXU in one tick: each frame bit stays one bit-time on the line, then the next one, or the buffer empties
(R64). -/
def State.txuTick (s : State) : State :=
  match s.txh with
  | none => s
  | some (b, i) =>
    if s.txBitCtr + 1 < Config.BIT_TICKS then { s with txBitCtr := s.txBitCtr + 1 }
    else if h : i.val < 9 then { s with txh := some (b, ⟨i.val + 1, by omega⟩), txBitCtr := 0 }
    else { s with txh := none, txBitCtr := 0 }

/-- The data bits with the level of frame bit `i` put in; frame bit `i` is data bit `i - 1` (R57). -/
def sampleBit (data : Byte) (i : Fin 10) (v : Bool) : Byte :=
  if v then data ||| (1#8 <<< (i.val - 1)) else data &&& ~~~(1#8 <<< (i.val - 1))

/-- The item of a finished frame: `Err` on a framing error (R58, R65). -/
def frameItem (data : Byte) (stop : Bool) : RxItem := if stop then .byte data else .err

/-- RXU in one tick, `rxd` being the level during it (R65, R67). DESIGN CHOICE (log entry 8): a bit is sampled in the last
tick of its bit-time. -/
def State.rxuTick (s : State) : State :=
  match s.rxu with
  | .idle => s
  | .heldLow => if s.env.rxd then { s with rxu := .idle } else s
  | .frame data i =>
    if s.rxBitCtr + 1 < Config.BIT_TICKS then { s with rxBitCtr := s.rxBitCtr + 1 }
    else if h : i.val < 9 then
      { s with
        rxBitCtr := 0
        rxu := .frame (if i.val = 0 then data else sampleBit data i s.env.rxd) ⟨i.val + 1, by omega⟩ }
    else
      { s with
        rxBitCtr := 0
        rxDone := s.rxDone ++ [frameItem data s.env.rxd]
        rxu := if s.env.rxd then .idle else .heldLow }

/-- RXU starts a frame on a falling edge of `rxd` from idle (R65); `before` is the level in the
tick that ended. -/
def State.rxuEdge (s : State) (before : Bool) : State :=
  match s.rxu with
  | .idle => if before && !s.env.rxd then { s with rxu := .frame 0 0, rxBitCtr := 0 } else s
  | .heldLow | .frame _ _ => s

/-- RXU offers the oldest completed item to RXH: stored if RXH is empty, else dropped and the older item kept (R65,
R66). -/
def State.rxuStore (s : State) : State :=
  match s.rxDone with
  | [] => s
  | item :: rest => { s with rxDone := rest, rxh := some (s.rxh.getD item), free := s.free + 1 }

/-- The line segments of a frame on the line (R57, R58). -/
def frameSegs (b : Byte) (stop : Bool) : List LineSeg :=
  [.bit false, .bit (b.getLsbD 0), .bit (b.getLsbD 1), .bit (b.getLsbD 2), .bit (b.getLsbD 3), .bit (b.getLsbD 4),
    .bit (b.getLsbD 5), .bit (b.getLsbD 6), .bit (b.getLsbD 7), .bit stop]

/-- What HOST puts on the line for an item (R57, R66, R67). -/
def itemSegs : HostItem → List LineSeg
  | .idle n => [.hold true n]
  | .frame b stop => frameSegs b stop
  | .lineBreak n => frameSegs 0 false ++ [.hold false n]
  | .eos => List.replicate 9 (.bit true) ++ [.eosBit]

/-- The level of a segment. -/
def LineSeg.level : LineSeg → Bool
  | .bit v => v
  | .hold v _ => v
  | .eosBit => true

/-- The level of `rxd` for what HOST is offering, 1 when it offers nothing (R57). -/
def lineLevel : List LineSeg → Bool
  | [] => true
  | seg :: _ => seg.level

/-- Whether the segment on the line ends with this tick, `ctr` ticks having been spent in it before. -/
def segEnds (ctr : Nat) : List LineSeg → Bool
  | [] => true
  | .bit _ :: _ | .eosBit :: _ => decide (Config.BIT_TICKS ≤ ctr + 1)
  | .hold _ n :: _ => decide (n ≤ ctr)

/-- The items HOST delivers when the segment on the line ends: end-of-stream, or none (R66). -/
def segDelivers : List LineSeg → List RxItem
  | .eosBit :: _ => [.eos]
  | [] | .bit _ :: _ | .hold _ _ :: _ => []

/-- HOST's next segments: the rest of the item, the next fixed item, or the next of its free input; with what is left of
the last two. Where the input has ended HOST offers nothing more (R68). -/
def nextLine : List LineSeg → List HostItem → Option Nat → List LineSeg × List HostItem × Option Nat
  | seg :: line, items, more => (seg :: line, items, more)
  | [], it :: items, more => (itemSegs it, items, more)
  | [], [], none => ([], [], none)
  | [], [], some k =>
    match Config.hostItem k with
    | some it => (itemSegs it, [], some (k + 1))
    | none => ([], [], none)

/-- The level HOST puts on `rst` in the next tick (R130). -/
def Env.nextRst (e : Env) : Bool :=
  match e.rstPlan, e.rstMore with
  | v :: _, _ => v
  | [], some k => Config.rstLevel k
  | [], none => false

/-- Where the levels of `rst` go on after the next tick. -/
def Env.nextRstMore (e : Env) : Option Nat :=
  match e.rstPlan with
  | _ :: _ => e.rstMore
  | [] => e.rstMore.map (· + 1)

/-- The input ports in one tick: `rst` takes its next level (R130), the line goes on, and a delivered
end-of-stream is a completed item (R66, R68). -/
def State.hostTick (s : State) : State :=
  let e := { s.env with
    rst := s.env.nextRst
    rstPlan := s.env.rstPlan.tail
    rstMore := s.env.nextRstMore }
  if segEnds s.env.lineCtr s.env.line then
    let n := nextLine s.env.line.tail s.env.items s.env.more
    { s with
      rxDone := s.rxDone ++ segDelivers s.env.line
      env := { e with rxd := lineLevel n.1, items := n.2.1, more := n.2.2, line := n.1, lineCtr := 0 } }
  else
    { s with env := { e with lineCtr := s.env.lineCtr + 1 } }

end Sys2Proof.Machine
end

