-- ==== Sys2Proof/Machine/Sequencer.lean ====
section
/-! DEFINITION. SEQ, the control loop (spec/43_control_loop.md R103 to R111), startup (spec/70_reset_and_hazards.md R133)
and the stream-fault path (spec/60_exceptions.md R121): when SEQ has an action it can take now, what a tick does to
its timers, and the action itself. Then a whole tick of the block and the choice of who moves (spec/20_memory.md
R44 to R46). -/

namespace Sys2Proof.Machine

/-- Whether SEQ can act now. Where it cannot, it is held: by a timer, by a full transmit buffer (R63), by an empty RXH
(R62), or for good in HALTED (R111). -/
def State.seqReady (s : State) : Bool :=
  decide (s.ls = .running) &&
    match s.ph with
    | .startup .enter => true
    | .startup (.sending []) => true
    | .startup (.sending (_ :: _)) => s.txEmpty
    | .startup (.holding elapsed) => decide (Config.T_STARTUP_TICKS ≤ elapsed)
    | .wait => decide (Config.T_WAIT_TICKS ≤ s.waitCtr)
    | .poll .sample => true
    | .poll (.nothing own) => decide (own = 0)
    | .poll (.read _) => s.rxAvail
    | .poll (.faulted _ own) => decide (own = 0)
    | .poll (.faultSending []) => true
    | .poll (.faultSending (_ :: _)) => s.txEmpty
    | .dispatch _ own => decide (own = 0)
    | .feedback .emit => true
    | .feedback (.sending []) => true
    | .feedback (.sending (_ :: _)) => s.txEmpty
    | .pulse .enter => true
    | .pulse (.high d) => decide (d.toNat * Config.US_TICKS ≤ s.pulseCtr)
    | .stopped => false

/-- SEQ's timers in one tick: the refresh wait, the pulse, the startup hold, and its own time (R34, R145). -/
def State.seqTick (s : State) : State :=
  match s.ls with
  | .halted => s
  | .running =>
    match s.ph with
    | .startup (.holding elapsed) => { s with ph := .startup (.holding (elapsed + 1)) }
    | .wait => { s with waitCtr := s.waitCtr + 1 }
    | .poll (.nothing own) => { s with ph := .poll (.nothing (own - 1)) }
    | .poll (.faulted kind own) => { s with ph := .poll (.faulted kind (own - 1)) }
    | .dispatch b own => { s with ph := .dispatch b (own - 1) }
    | .pulse (.high _) => { s with pulseCtr := s.pulseCtr + 1 }
    | .startup .enter | .startup (.sending _) | .poll .sample | .poll (.read _) | .poll (.faultSending _) | .feedback _
    | .pulse .enter | .stopped => s

/-- POLL: `RxAvailable()` is called once, right after WAIT (R106); `t_seq` is drawn for this iteration (R145). -/
def State.pollSample (s : State) : State :=
  let own := Config.ownTime s.free
  { s with free := s.free + 1, ph := if s.rxAvail then .poll (.read own) else .poll (.nothing own) }

/-- READ: `RxTake()`, then the case of R104 on the item: a byte goes to DISPATCH, `Eos` and `Err` to the stream-fault path
(R107). DEDUCED (log entry 5): it comes with no time after the poll, since RXH is full until the poll (R138), and the own
time passes after it, whatever the item is: before the dispatch, or before the stream fault is raised. An empty RXH holds
SEQ (R62). -/
def State.pollRead (s : State) (own : Nat) : State :=
  match s.rxTake with
  | none => s
  | some (.byte b, t) => { t with ph := .dispatch b own, free := t.free + 1 }
  | some (.eos, t) => { t with ph := .poll (.faulted .endOfStream own), free := t.free + 1 }
  | some (.err, t) => { t with ph := .poll (.faulted .readError own), free := t.free + 1 }

/-- What follows a command: SEQ goes on to FEEDBACK (R104). -/
def State.toFeedback (s : State) : State := { s with ph := .feedback .emit }

/-- DISPATCH: the byte is decoded, the command is executed, and SEQ goes on to FEEDBACK (R108). -/
def State.dispatchByte (s : State) (b : Byte) : Outcome :=
  match exec (decodeByte b) s with
  | .next t => .next t.toFeedback
  | .fault r => .fault r
  | .refused r => .refused r

/-- FEEDBACK: `Emit(ev)` with the event of the command just applied (R109). -/
def State.emitFeedback (s : State) : State :=
  match s.fb with
  | some ev => { s.emit ev (fun bs => .feedback (.sending bs)) with fb := none }
  | none => { s with ph := .pulse .enter }

/-- SEQ's action where it can act (R104, R121, R133). -/
def State.seqStep (s : State) : Outcome :=
  match s.ph with
  | .startup .enter => .next { s with ph := .startup (.sending Config.STARTUP_TX) }
  | .startup (.sending []) => .next { s with ph := .startup (.holding 0) }
  | .startup (.sending (b :: bs)) => .next { s.txSend b with ph := .startup (.sending bs) }
  | .startup (.holding _) => .next { s.startWait with ls := .running }
  | .wait => .next { s.record (.waited Config.T_WAIT_US) with ph := .poll .sample, waitCtr := 0 }
  | .poll .sample => .next s.pollSample
  | .poll (.nothing _) => .next { s with ph := .pulse .enter }
  | .poll (.read own) => .next (s.pollRead own)
  | .poll (.faulted kind _) => .next (s.raiseStreamFault kind)
  | .poll (.faultSending []) => .next s.halt
  | .poll (.faultSending (b :: bs)) => .next { s.txSend b with ph := .poll (.faultSending bs) }
  | .dispatch b _ => s.dispatchByte b
  | .feedback .emit => .next s.emitFeedback
  | .feedback (.sending []) => .next { s with ph := .pulse .enter }
  | .feedback (.sending (b :: bs)) => .next { s.txSend b with ph := .feedback (.sending bs) }
  | .pulse .enter => .next (s.pwmPulse s.dly)
  | .pulse (.high _) => .next s.pwmEnd
  | .stopped => .next s

/-- One tick: every timer of the block and HOST advance together. Where `rst` rises, reset overrides all of it (R124,
R130). -/
def State.tick (s : State) : State :=
  let t := s.seqTick.txuTick.rxuTick.hostTick.rxuEdge s.env.rxd
  if t.env.rst then t.powerOn else { t with now := t.now + 1 }

/-- One tick with `rst` at 1: every piece of state holds its reset value, and the receiver ignores `rxd` (R129). DESIGN CHOICE
(log entry 18): the receiver sees an edge only between two ticks with `rst` at 0, so a fall of `rxd` in the very tick in
which `rst` is released starts no frame; the spec enables the receiver from the release (R132) and is silent on that
edge. -/
def State.resetTick (s : State) : State := s.hostTick.powerOn

/-- Who moves next. -/
inductive Turn where
  /-- `rst` is 1: a tick under reset -/
  | reset
  /-- SEQ takes an action, in no time -/
  | seq
  /-- RXU offers a completed item to RXH, in no time -/
  | rxu
  /-- nobody can act: a tick passes -/
  | clock
deriving DecidableEq, Repr

/-- Whether SEQ's next action calls `RxAvailable` or `RxTake`, the only ones whose order with RXU's store shows (R45). -/
def Phase.usesRxh : Phase → Bool
  | .poll .sample => true
  | .poll (.read _) => true
  | .startup _ | .wait | .poll (.nothing _) | .poll (.faulted _ _) | .poll (.faultSending _) | .dispatch _ _ | .feedback _
  | .pulse _ | .stopped => false

/-- Whether SEQ is inside a clock cycle of the refresh wait. The last of these cycles is the clock cycle of the poll (R46,
R106). -/
def State.midCycle (s : State) : Bool := decide (s.ph = .wait) && decide (s.waitCtr % Config.CLK_TICKS ≠ 0)

/-- Who moves next. `rst` overrides everything (R124). Where an item has been completed in the clock cycle of the poll and SEQ
is about to use RXH, the order of the two is a free value, so both orders are admitted (R46); for that the items completed
inside a clock cycle of the wait are offered to RXH at its end (log entry 3). -/
def State.turn (s : State) : Turn :=
  if s.env.rst then .reset
  else if s.seqReady then
    if s.ph.usesRxh && !s.rxDone.isEmpty && Config.rxuFirst s.free then .rxu else .seq
  else if s.rxDone.isEmpty || s.midCycle then .clock
  else .rxu

end Sys2Proof.Machine
end

