-- ==== Sys2Proof/Machine/Step.lean ====
section
/-! DEFINITION. One step of the machine (spec/20_memory.md R44 to R46), and the state in which the next step runs a given
command. -/

namespace Sys2Proof.Machine

/-- One step: the move of whoever's turn it is. -/
def step (s : State) : Host.Outcome State Fault Refusal :=
  match s.turn with
  | .reset => .next s.resetTick
  | .seq => s.seqStep
  | .rxu => .next s.rxuStore
  | .clock => .next s.tick

/-- `s` with SEQ in DISPATCH on the byte `w`, its own time passed, `rst` released and LS RUNNING: the next step decodes
that byte and executes its command. A command is one byte and is never stored (R39), so this is where one is held. -/
def State.withFetchWord (s : State) (_nbits w : Nat) : State :=
  { s with
    ls := .running
    ph := .dispatch (BitVec.ofNat 8 w) 0
    env := { s.env with rst := false } }

end Sys2Proof.Machine
end

