-- ==== Sys2Proof/Machine/Interpret.lean ====
section
/-! DEFINITION. The decoder as the pure function of spec/41_command_interpreter.md R76, and the taxonomy of exceptional
events of spec/60_exceptions.md R115 to R120, which the block records nowhere. -/

namespace Sys2Proof.Machine

/-- The effect of a command on the latch, and its event (R80 to R88). -/
def interpretInstr (i : Instr) (l : Latch) : Latch × FeedbackEvent :=
  match i with
  | .dec => interpretDec l
  | .inc => interpretInc l
  | .ctr => interpretCtr l
  | .rst => interpretRst l
  | .smin => interpretSmin l
  | .smax => interpretSmax l
  | .dig0 => interpretDigit 0 l
  | .dig1 => interpretDigit 1 l
  | .dig2 => interpretDigit 2 l
  | .dig3 => interpretDigit 3 l
  | .dig4 => interpretDigit 4 l
  | .dig5 => interpretDigit 5 l
  | .dig6 => interpretDigit 6 l
  | .dig7 => interpretDigit 7 l
  | .dig8 => interpretDigit 8 l
  | .dig9 => interpretDigit 9 l
  | .inv b => interpretInv b l

/-- `Interpret`: latch and byte to latch and event (R76). -/
def interpret (l : Latch) (b : Byte) : Latch × FeedbackEvent := interpretInstr (decodeByte b) l

/-- The four exceptional events (R115). -/
inductive Cause where
  | invalidCommand
  | outOfRange
  | endOfStream
  | readError
deriving DecidableEq, Repr

/-- Their numeric codes, which appear on no port (R115). -/
def Cause.code : Cause → Nat
  | .invalidCommand => 1
  | .outOfRange => 2
  | .endOfStream => 3
  | .readError => 4

/-- The cause a stream-fault event carries (R118, R119). -/
def faultCause : FaultKind → Cause
  | .endOfStream => .endOfStream
  | .readError => .readError

/-- The exceptional event of a command on a latch, recovered locally (R116, R117). -/
def commandCause (i : Instr) (l : Latch) : Option Cause :=
  match i with
  | .inv _ => some .invalidCommand
  | .dec => if l.decCandidate < l.min.int then some .outOfRange else none
  | .inc =>
    if l.incCandidate > Config.REP_MAX ∨ l.incCandidate > l.max.int then some .outOfRange else none
  | .ctr | .rst | .smin | .smax => none
  | .dig0 | .dig1 | .dig2 | .dig3 | .dig4 | .dig5 | .dig6 | .dig7 | .dig8 | .dig9 => none

end Sys2Proof.Machine
end

