-- ==== Sys2Proof/Safety.lean ====
section
/-! DEFINITION. What holds of every state the block can reach, in the terms the claims use: the latch invariant (spec/10_state.md
R24), the sequencer's registers against each other (R26, R27, R31), the counters (R34), and the shape of the
observation trace (R33, spec/43_control_loop.md R104). -/

namespace Sys2Proof.Machine

/-- The latch invariant `MIN <= PW <= MAX` (R24). -/
def Latch.InRange (l : Latch) : Prop := l.min.toNat ≤ l.pw.toNat ∧ l.pw.toNat ≤ l.max.toNat

/-- INC and OVH hold their defaults (R89). -/
def Latch.ConstantsHeld (l : Latch) : Prop := l.inc = Config.INC_DEFAULT ∧ l.ovh = Config.OVH_DEFAULT

/-- Whether SEQ is in the high phase of a pulse. -/
def Phase.driving : Phase → Bool
  | .pulse (.high _) => true
  | .pulse .enter | .startup _ | .wait | .poll _ | .dispatch _ _ | .feedback _ | .stopped => false

/-- PH is STOPPED exactly when LS is HALTED (R27), and PWM_OUT is 1 exactly in a high phase (R31). -/
def State.RegistersAgree (s : State) : Prop :=
  (s.ls = .halted ↔ s.ph = .stopped) ∧ s.pwmOut = s.ph.driving

/-- The high phase is that of the current DLY, is not empty, and has not lasted longer (R23, R97). -/
def State.PulseInTime (s : State) : Prop :=
  ∀ d, s.ph = .pulse (.high d) → d = s.dly ∧ 0 < d.toNat ∧ s.pulseCtr ≤ d.toNat * Config.US_TICKS

/-- The own time still to pass in POLL and DISPATCH (R145). -/
def Phase.ownLeft : Phase → Nat
  | .poll (.nothing own) => own
  | .poll (.read own) => own
  | .poll (.faulted _ own) => own
  | .dispatch _ own => own
  | .startup _ | .wait | .poll .sample | .poll (.faultSending _) | .feedback _ | .pulse _ | .stopped => 0

/-- The counters stay within what they count toward, and are 0 where nothing is counted (R34, R145). -/
def State.CountersBounded (s : State) : Prop :=
  s.waitCtr ≤ Config.T_WAIT_TICKS ∧ (s.ph ≠ .wait → s.waitCtr = 0) ∧ (s.ph.driving = false → s.pulseCtr = 0) ∧
  s.txBitCtr < Config.BIT_TICKS ∧ (s.txh = none → s.txBitCtr = 0) ∧
  s.rxBitCtr < Config.BIT_TICKS ∧ ((s.rxu = .idle ∨ s.rxu = .heldLow) → s.rxBitCtr = 0) ∧
  s.ph.ownLeft ≤ Config.T_SEQ_MAX_TICKS

/-- Whether an event is a stream fault's. -/
def isStreamFault : FeedbackEvent → Bool
  | .streamFault _ => true
  | .width _ | .widthBounds _ _ _ | .min _ | .max _ | .digit _ _ _ _ | .invalid _ => false

/-- An event waits for emission exactly at the start of FEEDBACK, and it is a command's (R109). -/
def State.EventPending (s : State) : Prop :=
  (s.fb.isSome = true ↔ s.ph = .feedback .emit) ∧ ∀ ev, s.fb = some ev → isStreamFault ev = false

/-- Where a trace stands in the loop of R104. -/
inductive TracePos where
  /-- startup messages only so far (R133) -/
  | startup
  /-- a pulse slot ended the last iteration -/
  | iterationDone
  /-- the refresh wait of this iteration is over -/
  | waited
  /-- a command's event was emitted -/
  | told
  /-- a stream fault's event was emitted (R121) -/
  | faulted
  /-- the block has halted (R111) -/
  | halted
deriving DecidableEq, Repr

/-- The next place in the loop, none where the loop admits no such event: each iteration is the exact refresh wait, at most
one event with its message, and one pulse slot, unless a stream fault ends the run (R104, R111, R112, R121). -/
def TracePos.next : TracePos → Event → Option TracePos
  | .startup, .txByte _ => some .startup
  | .startup, .waited t | .iterationDone, .waited t => if t = Config.T_WAIT_US then some .waited else none
  | .waited, .feedback ev => if isStreamFault ev then some .faulted else some .told
  | .waited, .pulse _ | .told, .pulse _ => some .iterationDone
  | .told, .txByte _ => some .told
  | .faulted, .txByte _ => some .faulted
  | .faulted, .halted => some .halted
  | .startup, .feedback _ | .startup, .pulse _ | .startup, .halted => none
  | .iterationDone, .txByte _ | .iterationDone, .feedback _ | .iterationDone, .pulse _ | .iterationDone, .halted => none
  | .waited, .txByte _ | .waited, .waited _ | .waited, .halted => none
  | .told, .feedback _ | .told, .waited _ | .told, .halted => none
  | .faulted, .feedback _ | .faulted, .pulse _ | .faulted, .waited _ => none
  | .halted, _ => none

/-- Follow a trace from a place in the loop. -/
def followTrace (p : TracePos) : List Event → Option TracePos
  | [] => some p
  | e :: es => (p.next e).bind (followTrace · es)

/-- The places in the loop a phase can be at. -/
def Phase.tracePlaces : Phase → List TracePos
  | .startup _ => [.startup]
  | .wait => [.startup, .iterationDone]
  | .poll (.faultSending _) => [.faulted]
  | .poll .sample | .poll (.nothing _) | .poll (.read _) | .poll (.faulted _ _) | .dispatch _ _ | .feedback .emit => [.waited]
  | .feedback (.sending _) => [.told]
  | .pulse .enter => [.waited, .told]
  | .pulse (.high _) => [.iterationDone]
  | .stopped => [.halted]

/-- The trace is a run of the loop of R104 and stands where PH says. -/
def State.TraceFollowsLoop (s : State) : Prop :=
  ∃ p, followTrace .startup s.trace = some p ∧ p ∈ s.ph.tracePlaces

/-- A feedback event in the trace. -/
def Event.isFeedback : Event → Bool
  | .feedback _ => true
  | .txByte _ | .pulse _ | .waited _ | .halted => false

/-- A pulse slot in the trace. -/
def Event.isPulse : Event → Bool
  | .pulse _ => true
  | .txByte _ | .feedback _ | .waited _ | .halted => false

/-- A refresh wait in the trace. -/
def Event.isWaited : Event → Bool
  | .waited _ => true
  | .txByte _ | .feedback _ | .pulse _ | .halted => false

/-- The microseconds an event stands for (R33). -/
def Event.us : Event → Nat
  | .waited t => t
  | .pulse d => d.toNat
  | .txByte _ | .feedback _ | .halted => 0

/-- The microseconds recorded in a trace. -/
def recordedUs (es : List Event) : Nat := (es.map Event.us).sum

/-- The ticks of the pulse in progress, 0 outside a high phase. -/
def Phase.pulseTicks : Phase → Nat
  | .pulse (.high d) => d.toNat * Config.US_TICKS
  | .pulse .enter | .startup _ | .wait | .poll _ | .dispatch _ _ | .feedback _ | .stopped => 0

/-- The recorded durations, less the part of the present pulse still to come, have passed (R13, R33). -/
def State.DurationsElapsed (s : State) : Prop :=
  recordedUs s.trace * Config.US_TICKS + s.waitCtr + s.pulseCtr ≤ s.now + s.ph.pulseTicks

/-- `rxd` is at the level HOST is driving. -/
def State.LineDriven (s : State) : Prop := s.env.rxd = lineLevel s.env.line

/-- Where SEQ is to read, an item is there (R107). -/
def State.ReadHasItem (s : State) : Prop := ∀ own, s.ph = .poll (.read own) → s.rxAvail = true

/-- What holds in every state reachable from reset. -/
structure State.Inv (s : State) : Prop where
  inRange : s.latch.InRange
  constants : s.latch.ConstantsHeld
  registers : s.RegistersAgree
  pulse : s.PulseInTime
  counters : s.CountersBounded
  event : s.EventPending
  trace : s.TraceFollowsLoop
  durations : s.DurationsElapsed
  line : s.LineDriven
  read : s.ReadHasItem

/-- A run is final exactly when LS is HALTED and TXH is empty (R114). -/
def State.Final (s : State) : Prop := s.ls = .halted ∧ s.txh = none

/-- Ticks until TXH is empty (R64, R72). -/
def State.txRemaining (s : State) : Nat :=
  match s.txh with
  | none => 0
  | some (_, i) => (Config.FRAME_BITS - i.val) * Config.BIT_TICKS - s.txBitCtr

/-- HOST is quiet: no reset and no item to come, nothing on the line or under way in the receiver. -/
def State.HostQuiet (s : State) : Prop :=
  s.env.rst = false ∧ s.env.rstPlan = [] ∧ s.env.rstMore = none ∧ s.env.rxd = true ∧ s.env.items = [] ∧
  s.env.more = none ∧ s.env.line = [] ∧ s.rxu = .idle ∧ s.rxDone = []

/-- The receiver and HOST alone, for one tick, as they stand in `State.tick` (R65, R68). -/
def State.lineTick (s : State) : State := s.rxuTick.hostTick.rxuEdge s.env.rxd

/-- What is on the line ends in this tick, so that HOST begins its next item, if it has one, at the end of it. -/
def State.LineEnds (s : State) : Prop := segEnds s.env.lineCtr s.env.line = true ∧ s.env.line.tail = []

/-- `it` is what HOST offers next, be it the next fixed item or the next of its free input (R68). -/
def State.Offers (s : State) (it : HostItem) : Prop := (nextLine [] s.env.items s.env.more).1 = itemSegs it

/-- After every refresh wait, before the next one, there is at most one command event and at most one pulse slot, and exactly
one pulse slot if a next one has come (R110, R112). -/
def OncePerWait (es : List Event) : Prop :=
  ∀ (before mid after : List Event) (us : Nat), es = before ++ .waited us :: mid ++ after → mid.countP Event.isWaited = 0 →
    mid.countP Event.isFeedback ≤ 1 ∧ mid.countP Event.isPulse ≤ 1 ∧
    ∀ us' rest, after = .waited us' :: rest → mid.countP Event.isPulse = 1

end Sys2Proof.Machine
end

