-- ==== Sys2Proof/Certificates/Slice0/Obligations.lean ====
section
/-! DEFINITION. The statements for the provers, each a rule of spec/ or a consequence of several, about the frozen model. -/

open Sys2Proof Sys2Proof.Machine

/-! ### Reset -/

/-- R36: the reset value of every piece of state. -/
def Obligations.ResetStateIsTheSpecs : Prop :=
  State.reset.latch.pw = 1500 ∧ State.reset.latch.min = 0 ∧ State.reset.latch.max = 65535 ∧
  State.reset.latch.inc = 50 ∧ State.reset.latch.ovh = 500 ∧ State.reset.dly = 1000 ∧
  State.reset.ls = .running ∧ State.reset.ph.name = .STARTUP ∧
  State.reset.rxh = none ∧ State.reset.txh = none ∧ State.reset.txd = true ∧ State.reset.pwmOut = false ∧
  State.reset.waitCtr = 0 ∧ State.reset.pulseCtr = 0 ∧ State.reset.rxBitCtr = 0 ∧ State.reset.txBitCtr = 0 ∧
  State.reset.trace = []

/-- The reset state meets the invariant that every step keeps. The invariant is the model's own collection of R24, R26, R27,
R31, R33, R34, R89 and R107; its clauses on the recorded durations against `State.now`, on the own time left, on the event in
hand and on counters in ticks are the model's choice (log entries 4, 5, 6 and 7). -/
def Obligations.ResetMeetsInvariant : Prop := State.reset.Inv

/-- `rst` at 1, before the step or after it, leaves every piece of the block's state at its reset value (R129, R130). The
model's choice: HOST's side and the count of free values are kept (log entries 2 and 5); the model's clock, the event in
hand and the completed items start again (log entries 4, 6 and 3); `rst` acts in the very tick in which it rises (log entry
13); and where `rst` falls RXU is idle even if `rxd` falls in that very tick (log entry 18). -/
def Obligations.ResetOverridesEveryState : Prop :=
  ∀ s t : State, step s = .next t → s.env.rst = true ∨ t.env.rst = true →
    t = { State.reset with free := s.free, env := t.env }

/-- After a tick `rst` is at the level HOST puts on it, and where that is 1 the block is at its reset values, whatever the
phase was (R130). The model's choice: HOST fixes a level for each tick (log entry 2), and `rst` acts in the very tick in which
it rises (log entry 13). -/
def Obligations.PlannedResetIsAsserted : Prop :=
  ∀ s : State, s.turn = .clock ∨ s.turn = .reset →
    ∃ t, step s = .next t ∧ t.env.rst = s.env.nextRst ∧ t.env.rstPlan = s.env.rstPlan.tail ∧
      t.env.rstMore = s.env.nextRstMore ∧
      (s.env.nextRst = true → t.latch = State.reset.latch ∧ t.ph = State.reset.ph ∧ t.pwmOut = false ∧ t.txd = true ∧
        t.trace = [])

/-! ### Encoding -/

/-- R52: the decode table, row by row. -/
def Obligations.CommandBytesDecodeAsInTheTable : Prop :=
  decode [0x2C] = .instr .dec [] ∧ decode [0x2E] = .instr .inc [] ∧ decode [0x20] = .instr .ctr [] ∧
  decode [0x0D] = .instr .rst [] ∧ decode [0x3C] = .instr .smin [] ∧ decode [0x3E] = .instr .smax [] ∧
  decode [0x30] = .instr .dig0 [] ∧ decode [0x31] = .instr .dig1 [] ∧ decode [0x32] = .instr .dig2 [] ∧
  decode [0x33] = .instr .dig3 [] ∧ decode [0x34] = .instr .dig4 [] ∧ decode [0x35] = .instr .dig5 [] ∧
  decode [0x36] = .instr .dig6 [] ∧ decode [0x37] = .instr .dig7 [] ∧ decode [0x38] = .instr .dig8 [] ∧
  decode [0x39] = .instr .dig9 [] ∧
  ∀ b : Byte,
    b ∉ ([0x2C, 0x2E, 0x20, 0x0D, 0x3C, 0x3E, 0x30, 0x31, 0x32, 0x33, 0x34, 0x35, 0x36, 0x37, 0x38, 0x39] : List Byte) →
      decode [b] = .instr (.inv b) []

/-- R54: the invalid class, as the ranges the rule lists, and its size. -/
def Obligations.InvalidClassIsTheListedRanges : Prop :=
  (∀ b : Byte, decodeByte b = .inv b ↔
    b.toNat ≤ 0x0C ∨ (0x0E ≤ b.toNat ∧ b.toNat ≤ 0x1F) ∨ (0x21 ≤ b.toNat ∧ b.toNat ≤ 0x2B) ∨ b = 0x2D ∨ b = 0x2F ∨
      b = 0x3A ∨ b = 0x3B ∨ b = 0x3D ∨ 0x3F ≤ b.toNat) ∧
  ((List.range 256).filter (fun n => decide (decodeByte (BitVec.ofNat 8 n) = .inv (BitVec.ofNat 8 n)))).length = 240 ∧
  ∀ (b : Byte) (s : State), ∃ t, exec (.inv b) s = .next t ∧ t.latch = s.latch ∧ t.fb = some (.invalid b)

/-- R50, R53, R55: any byte is exactly one well-formed command, and that command's byte is it. -/
def Obligations.EveryByteIsOneCommand : Prop :=
  ∀ (b : Byte) (rest : List Byte),
    ∃ i, decode (b :: rest) = .instr i rest ∧ i.wellFormed = true ∧ encode i = [b] ∧
      ∀ j : Instr, j.wellFormed = true → encode j = [b] → j = i

/-- Decoding an encoded well-formed instruction gives it back, with whatever follows it (R50, R52). -/
def Obligations.DecodeReadsEncodedInstructionBack : Prop :=
  ∀ (i : Instr) (rest : List Byte), i.wellFormed = true → decode (encode i ++ rest) = .instr i rest

/-! ### Commands: result, event and frame. Each next state is the old one but for what the equation names. -/

/-- R80. -/
def Obligations.DecLowersPwFlooredAtMin : Prop :=
  decodeByte 0x2C = .dec ∧ ∀ s : State, ∃ w : Word,
    exec .dec s = .next { s with latch := { s.latch with pw := w }, fb := some (.width w) } ∧
    (w.toNat : Int) =
      (if (s.latch.pw.toNat : Int) - s.latch.inc.toNat < s.latch.min.toNat then (s.latch.min.toNat : Int)
      else if (s.latch.pw.toNat : Int) - s.latch.inc.toNat > s.latch.max.toNat then (s.latch.max.toNat : Int)
      else (s.latch.pw.toNat : Int) - s.latch.inc.toNat) ∧
    (s.latch.InRange → (w.toNat : Int) = max ((s.latch.pw.toNat : Int) - s.latch.inc.toNat) s.latch.min.toNat)

/-- R81. -/
def Obligations.IncRaisesPwOrIsSkipped : Prop :=
  decodeByte 0x2E = .inc ∧ ∀ s : State, ∃ w : Word,
    exec .inc s = .next { s with latch := { s.latch with pw := w }, fb := some (.width w) } ∧
    (s.latch.pw.toNat + s.latch.inc.toNat > 65535 → w = s.latch.pw) ∧
    (s.latch.pw.toNat + s.latch.inc.toNat ≤ 65535 →
      w.toNat =
        (if s.latch.pw.toNat + s.latch.inc.toNat < s.latch.min.toNat then s.latch.min.toNat
        else if s.latch.pw.toNat + s.latch.inc.toNat > s.latch.max.toNat then s.latch.max.toNat
        else s.latch.pw.toNat + s.latch.inc.toNat) ∧
      (s.latch.InRange → w.toNat = min (s.latch.pw.toNat + s.latch.inc.toNat) s.latch.max.toNat))

/-- R82. -/
def Obligations.CtrCentresPw : Prop :=
  decodeByte 0x20 = .ctr ∧ ∀ s : State, ∃ w : Word,
    exec .ctr s =
      .next { s with latch := { s.latch with pw := w }, fb := some (.widthBounds w s.latch.min s.latch.max) } ∧
    w.toNat =
      (if (s.latch.min.toNat + s.latch.max.toNat + 1) / 2 < s.latch.min.toNat then s.latch.min.toNat
      else if (s.latch.min.toNat + s.latch.max.toNat + 1) / 2 > s.latch.max.toNat then s.latch.max.toNat
      else (s.latch.min.toNat + s.latch.max.toNat + 1) / 2) ∧
    (s.latch.InRange → w.toNat = (s.latch.min.toNat + s.latch.max.toNat + 1) / 2)

/-- R84: the five registers, the event, and nothing else (the frame of R135). -/
def Obligations.RstRestoresDefaults : Prop :=
  decodeByte 0x0D = .rst ∧ decodeByte 0x0A = .inv 0x0A ∧ ∀ s : State,
    exec .rst s =
      .next { s with
        latch := { pw := 1500, min := 0, max := 65535, inc := 50, ovh := 500 }
        fb := some (.widthBounds 1500 0 65535) } ∧
    ∀ t, exec .rst s = .next t → t.dly = 1000

/-- R85. The last clause is its 'can never': once MIN is at least `m`, every command but RST keeps both MIN and PW at
least `m`, and keeps the range, so the next one does too. -/
def Obligations.SminLatchesMin : Prop :=
  (decodeByte 0x3C = .smin ∧ ∀ s : State,
    exec .smin s = .next { s with latch := { s.latch with min := s.latch.pw }, fb := some (.min s.latch.pw) } ∧
    ∀ t, exec .smin s = .next t →
      t.dly = s.dly ∧ (s.latch.InRange → t.latch.InRange ∧ t.latch.min.toNat ≤ t.latch.max.toNat) ∧
      (s.latch.pw = s.latch.max → t.latch.min = t.latch.max)) ∧
  ∀ (m : Nat) (s : State), s.latch.InRange → m ≤ s.latch.min.toNat → ∀ i : Instr, i ≠ .rst →
    ∃ u, exec i s = .next u ∧ u.latch.InRange ∧ m ≤ u.latch.min.toNat ∧ m ≤ u.latch.pw.toNat

/-- R86. -/
def Obligations.SmaxLatchesMax : Prop :=
  decodeByte 0x3E = .smax ∧ ∀ s : State,
    exec .smax s = .next { s with latch := { s.latch with max := s.latch.pw }, fb := some (.max s.latch.pw) } ∧
    ∀ t, exec .smax s = .next t →
      t.dly = s.dly ∧ (s.latch.InRange → t.latch.min.toNat ≤ t.latch.max.toNat) ∧
      (s.latch.pw = s.latch.min → t.latch.min = t.latch.max)

/-- R87, for the ten digit commands. -/
def Obligations.DigitsInterpolate : Prop :=
  ∀ di ∈ ([(0, .dig0), (1, .dig1), (2, .dig2), (3, .dig3), (4, .dig4), (5, .dig5), (6, .dig6), (7, .dig7), (8, .dig8),
      (9, .dig9)] : List (Fin 10 × Instr)),
    decodeByte (BitVec.ofNat 8 (0x30 + di.1.val)) = di.2 ∧ ∀ s : State, ∃ w : Word,
      exec di.2 s =
        .next { s with
          latch := { s.latch with pw := w }
          fb := some (.digit di.1 w s.latch.min s.latch.max) } ∧
      (∀ v : Int,
        v = (s.latch.min.toNat : Int) +
          ((di.1.val : Int) * ((s.latch.max.toNat : Int) - (s.latch.min.toNat : Int)) + 4) / 9 →
        (w.toNat : Int) =
          (if v < (s.latch.min.toNat : Int) then (s.latch.min.toNat : Int)
          else if v > (s.latch.max.toNat : Int) then (s.latch.max.toNat : Int) else v) ∧
        (s.latch.InRange → (w.toNat : Int) = v))

/-- R88: no state change but the event to report, and it is no fault. -/
def Obligations.InvReportsTheByte : Prop :=
  (∀ b : Byte, b ∉ commandBytes → decodeByte b = .inv b) ∧
  ∀ (b : Byte) (s : State), exec (.inv b) s = .next { s with fb := some (.invalid b) }

/-- R91. -/
def Obligations.DigitZeroIsMinAndNineIsMax : Prop :=
  ∀ s : State, s.latch.min.toNat ≤ s.latch.max.toNat →
    (∃ t, exec .dig0 s = .next t ∧ t.latch.pw = s.latch.min) ∧
    ∃ t, exec .dig9 s = .next t ∧ t.latch.pw = s.latch.max

/-- A digit's position is the integer nearest to the exact interpolation: nine times the distance is at most 4 (R12,
R87). -/
def Obligations.DigitPositionIsNearest : Prop :=
  ∀ (d : Fin 10) (s : State), s.latch.min.toNat ≤ s.latch.max.toNat →
    ∃ t, exec (.digit d) s = .next t ∧
      |9 * ((t.latch.pw.toNat : Int) - s.latch.min.toNat) -
        d.val * ((s.latch.max.toNat : Int) - s.latch.min.toNat)| ≤ 4

/-- R76: a command's new latch and event come from the latch alone, and it has no other effect. -/
def Obligations.CommandsReadAndWriteTheLatchAlone : Prop :=
  ∀ (i : Instr) (s₁ s₂ : State), s₁.latch = s₂.latch → ∃ l ev,
    exec i s₁ = .next { s₁ with latch := l, fb := some ev } ∧
    exec i s₂ = .next { s₂ with latch := l, fb := some ev }

/-- R79: the event of a command carries the values after its writes. -/
def Obligations.EventsCarryTheNewValues : Prop :=
  ∀ (i : Instr) (s : State), ∃ t, exec i s = .next t ∧
    match i with
    | .dec | .inc => t.fb = some (.width t.latch.pw)
    | .ctr | .rst => t.fb = some (.widthBounds t.latch.pw t.latch.min t.latch.max)
    | .smin => t.fb = some (.min t.latch.min)
    | .smax => t.fb = some (.max t.latch.max)
    | .dig0 => t.fb = some (.digit 0 t.latch.pw t.latch.min t.latch.max)
    | .dig1 => t.fb = some (.digit 1 t.latch.pw t.latch.min t.latch.max)
    | .dig2 => t.fb = some (.digit 2 t.latch.pw t.latch.min t.latch.max)
    | .dig3 => t.fb = some (.digit 3 t.latch.pw t.latch.min t.latch.max)
    | .dig4 => t.fb = some (.digit 4 t.latch.pw t.latch.min t.latch.max)
    | .dig5 => t.fb = some (.digit 5 t.latch.pw t.latch.min t.latch.max)
    | .dig6 => t.fb = some (.digit 6 t.latch.pw t.latch.min t.latch.max)
    | .dig7 => t.fb = some (.digit 7 t.latch.pw t.latch.min t.latch.max)
    | .dig8 => t.fb = some (.digit 8 t.latch.pw t.latch.min t.latch.max)
    | .dig9 => t.fb = some (.digit 9 t.latch.pw t.latch.min t.latch.max)
    | .inv b => t.fb = some (.invalid b)

/-- R95: every command keeps `MIN <= PW <= MAX`, reset meets it, and every step from a state that meets it, whatever HOST does,
leads to one that does, so every reachable state meets it; and there the clamps of R82 and R87 change nothing. -/
def Obligations.CommandsKeepPwInRange : Prop :=
  State.reset.latch.InRange ∧
  (∀ (i : Instr) (s : State), s.latch.InRange → ∃ t, exec i s = .next t ∧ t.latch.InRange) ∧
  (∀ s t : State, s.latch.InRange → step s = .next t → t.latch.InRange) ∧
  ∀ l : Latch, l.InRange →
    clamp l.centre l.min.int l.max.int = l.centre ∧
    ∀ d : Fin 10, clamp (l.digitPosition d) l.min.int l.max.int = l.digitPosition d

/-- The table of R25: which commands can change which register. -/
def Obligations.EachRegisterHasItsWriters : Prop :=
  ∀ (i : Instr) (s : State), ∃ t, exec i s = .next t ∧
    (t.latch.pw ≠ s.latch.pw → i = .dec ∨ i = .inc ∨ i = .ctr ∨ i = .rst ∨ ∃ d, i = .digit d) ∧
    (t.latch.min ≠ s.latch.min → i = .rst ∨ i = .smin) ∧
    (t.latch.max ≠ s.latch.max → i = .rst ∨ i = .smax) ∧
    (t.latch.inc ≠ s.latch.inc → i = .rst ∧ t.latch.inc = 50) ∧
    (t.latch.ovh ≠ s.latch.ovh → i = .rst ∧ t.latch.ovh = 500)

/-- R94: how the range collapses, and that PW then stays at its one value until RST. -/
def Obligations.CollapsedRangeHoldsPw : Prop :=
  ∀ s : State, s.latch.InRange →
    (s.latch.pw = s.latch.max → ∃ t, exec .smin s = .next t ∧ t.latch.min = t.latch.max) ∧
    (s.latch.pw = s.latch.min → ∃ t, exec .smax s = .next t ∧ t.latch.min = t.latch.max) ∧
    (s.latch.min = s.latch.max → ∀ i : Instr, i ≠ .rst →
      ∃ t, exec i s = .next t ∧ t.latch.pw = s.latch.min ∧ t.latch.pw = s.latch.pw ∧
        t.latch.min = s.latch.min ∧ t.latch.max = s.latch.max)

/-- R117: when a command is out of range, and that it is then recovered by a bound or a skip with the command's ordinary
event. -/
def Obligations.OutOfRangeIsRecoveredSilently : Prop :=
  ∀ (i : Instr) (s : State), s.latch.InRange →
    (commandCause i s.latch = some .outOfRange ↔
      (i = .dec ∧ (s.latch.pw.toNat : Int) - s.latch.inc.toNat < s.latch.min.toNat) ∨
      (i = .inc ∧ s.latch.pw.toNat + s.latch.inc.toNat > s.latch.max.toNat ∧
        s.latch.pw.toNat + s.latch.inc.toNat ≤ 65535) ∨
      (i = .inc ∧ s.latch.pw.toNat + s.latch.inc.toNat > 65535)) ∧
    (commandCause i s.latch = some .outOfRange →
      ∃ w : Word, exec i s = .next { s with latch := { s.latch with pw := w }, fb := some (.width w) } ∧
        (i = .dec → w = s.latch.min) ∧
        (i = .inc → s.latch.pw.toNat + s.latch.inc.toNat ≤ 65535 → w = s.latch.max) ∧
        (i = .inc → s.latch.pw.toNat + s.latch.inc.toNat > 65535 → w = s.latch.pw))

/-- R22. -/
def Obligations.DlyIsPwLessOverhead : Prop :=
  (∀ s : State, s.dly.toNat =
    (if s.latch.pw.toNat > s.latch.ovh.toNat then s.latch.pw.toNat - s.latch.ovh.toNat else 0) ∧
    s.dly.toNat ≤ 65535 ∧ (s.latch.ovh = 500 → s.dly.toNat ≤ 65035)) ∧
  State.reset.dly.toNat = 1000

/-! ### Who moves, and what a step runs -/

/-- When SEQ is in DISPATCH on a byte that decodes to `i`, the step is `exec i` and then FEEDBACK (R108). That the own time of
the iteration passes before it is the model's choice (log entry 5). -/
def Obligations.StepRunsTheDecodedInstruction : Prop :=
  ∀ (s : State) (b : Byte) (i : Instr), s.env.rst = false → s.ls = .running → s.ph = .dispatch b 0 →
    decode [b] = .instr i [] →
    ∃ t, exec i s = .next t ∧ step s = .next { t with ph := .feedback .emit }

/-- No step stops: every state has a next state. The model's reading (log entry 15): an invalid command, HALTED, an empty read
and a stream fault are all no stop of the machine (R88, R111, R121, R142); with HALTED, or with a read of an empty RXH, the
clock goes on (log entry 10). -/
def Obligations.EveryStepAnswersNext : Prop := ∀ s : State, ∃ t, step s = .next t

/-- The latch is written by the decoder in DISPATCH and by power-on reset, by nothing else (R16). That `rst` acts in the tick in
which it rises is the model's choice (log entry 13). -/
def Obligations.OnlyDispatchAndResetWriteTheLatch : Prop :=
  ∀ s t : State, step s = .next t →
    t.latch = s.latch ∨
    (∃ b, s.ls = .running ∧ s.ph = .dispatch b 0 ∧ t.latch = (interpret s.latch b).1) ∨
    ((s.env.rst = true ∨ t.env.rst = true) ∧ t.latch = Latch.defaults)

/-- INC and OVH hold their defaults at reset and after every step, and RST alone writes them (R89). -/
def Obligations.IncAndOvhStayAtDefaults : Prop :=
  (State.reset.latch.inc = 50 ∧ State.reset.latch.ovh = 500) ∧
  (∀ s t : State, step s = .next t → s.latch.inc = 50 ∧ s.latch.ovh = 500 → t.latch.inc = 50 ∧ t.latch.ovh = 500) ∧
  ∀ (i : Instr) (s t : State), exec i s = .next t →
    t.latch.inc ≠ s.latch.inc ∨ t.latch.ovh ≠ s.latch.ovh → i = .rst

/-- The phases follow one another as in R104, unless `rst` is asserted. -/
def Obligations.PhasesFollowTheLoop : Prop :=
  ∀ s t : State, step s = .next t → s.env.rst = false → t.env.rst = false →
    t.ph.name = s.ph.name ∨
    (s.ph.name, t.ph.name) ∈
      ([(.STARTUP, .WAIT), (.WAIT, .POLL), (.POLL, .DISPATCH), (.POLL, .PULSE), (.POLL, .STOPPED),
        (.DISPATCH, .FEEDBACK), (.FEEDBACK, .PULSE), (.PULSE, .WAIT)] : List (PhaseName × PhaseName))

/-! ### UART -/

/-- R64, R57: what is on `txd`, and what a tick does to TXH; a bit-time is `BIT_TICKS` ticks (log entry 7). -/
def Obligations.TransmitterShiftsTheFrame : Prop :=
  (∀ s : State, s.txh = none → s.txd = true) ∧
  (∀ (s : State) (b : Byte) (i : Fin 10), s.txh = some (b, i) →
    s.txd = (if i.val = 0 then false else if i.val = 9 then true else b.getLsbD (i.val - 1))) ∧
  ∀ s : State, s.turn = .clock → s.env.nextRst = false → ∃ t, step s = .next t ∧
    (s.txh = none → t.txh = none) ∧
    ∀ (b : Byte) (i : Fin 10), s.txh = some (b, i) →
      (s.txBitCtr + 1 < Config.BIT_TICKS → t.txh = s.txh ∧ t.txBitCtr = s.txBitCtr + 1) ∧
      (Config.BIT_TICKS ≤ s.txBitCtr + 1 → t.txBitCtr = 0 ∧
        (∀ h : i.val < 9, t.txh = some (b, ⟨i.val + 1, by omega⟩)) ∧ (i.val = 9 → t.txh = none))

/-- R63: with TXH empty the next byte of a message is loaded and recorded and SEQ goes on to the rest; with TXH full SEQ
does not move. For the three places that send. And over every step (R30): only this fills TXH, only TXU moves it on and empties
it, after frame bit 9, or `rst` does. That loading is a step of its own that takes no time, and that `rst` acts in the tick in
which it rises, is the model's choice (log entries 1 and 13). -/
def Obligations.TxSendLoadsOrHolds : Prop :=
  (∀ place ∈ ([fun bs => .startup (.sending bs), fun bs => .feedback (.sending bs), fun bs => .poll (.faultSending bs)] :
      List (List Byte → Phase)),
    ∀ (s : State) (b : Byte) (bs : List Byte), s.env.rst = false → s.ls = .running → s.ph = place (b :: bs) →
      (s.txh = none →
        step s = .next { s with
          txh := some (b, 0), txBitCtr := 0, trace := s.trace ++ [.txByte b], ph := place bs }) ∧
      (s.txh ≠ none → ∃ t, step s = .next t ∧ (t.env.rst = false → t.ph = s.ph ∧ t.trace = s.trace))) ∧
  ∀ s t : State, step s = .next t →
    t.txh = s.txh ∨
    (s.turn = .seq ∧ s.ls = .running ∧ s.txh = none ∧ ∃ b bs,
      (s.ph = .startup (.sending (b :: bs)) ∨ s.ph = .feedback (.sending (b :: bs)) ∨
        s.ph = .poll (.faultSending (b :: bs))) ∧
      t.txh = some (b, 0) ∧ t.trace = s.trace ++ [.txByte b]) ∨
    (s.turn = .clock ∧ ∃ (b : Byte) (i : Fin 10), s.txh = some (b, i) ∧
      ((∃ h : i.val < 9, t.txh = some (b, ⟨i.val + 1, by omega⟩)) ∨ (i.val = 9 ∧ t.txh = none))) ∨
    ((s.env.rst = true ∨ t.env.rst = true) ∧ t.txh = none)

/-- R72: a transmission takes at most 10 bit-times, less than 1 ms, and every tick brings its end one tick nearer, so
`writeByte` waits no longer (that time goes in ticks is log entry 7). -/
def Obligations.TransmissionEndsInAFrameTime : Prop :=
  10 * Config.BIT_TICKS < 1000 * Config.US_TICKS ∧
  ∀ s : State, s.txRemaining ≤ 10 * Config.BIT_TICKS ∧
    (s.txBitCtr < Config.BIT_TICKS →
      (s.txh = none ↔ s.txRemaining = 0) ∧
      ∀ t, s.turn = .clock → s.env.nextRst = false → step s = .next t →
        t.txRemaining = s.txRemaining - 1 ∧ t.txBitCtr < Config.BIT_TICKS)

/-- An item RXU has completed is stored in an empty RXH and dropped at a full one, and nothing else of the block changes
(R65, R66, R67). And over every step (R28): only this fills RXH, and only the read or `rst` empties it. That the store is a step
of its own, that completed items wait for it, and that `rst` acts in the tick in which it rises, is the model's choice (log
entries 1, 3 and 13). -/
def Obligations.OverrunKeepsTheOlderItem : Prop :=
  (∀ (s : State) (item : RxItem) (rest : List RxItem), s.turn = .rxu → s.rxDone = item :: rest →
    ∃ t, step s = .next t ∧
      (s.rxh = none → t = { s with rxh := some item, rxDone := rest, free := t.free }) ∧
      (s.rxh ≠ none → t = { s with rxDone := rest, free := t.free })) ∧
  ∀ s t : State, step s = .next t →
    t.rxh = s.rxh ∨
    (s.turn = .rxu ∧ s.rxh = none ∧ ∃ item rest, s.rxDone = item :: rest ∧ t.rxh = some item ∧ t.rxDone = rest) ∨
    (s.turn = .seq ∧ s.ls = .running ∧ (∃ own, s.ph = .poll (.read own)) ∧ s.rxh ≠ none ∧ t.rxh = none) ∨
    ((s.env.rst = true ∨ t.env.rst = true) ∧ t.rxh = none)

/-- A frame HOST offers next, be it a fixed item or one of its free input, on an idle line or right behind another item, is read
by RXU bit by bit: after the tick in which it begins and ten bit-times, the item completed is the byte if the stop bit was 1
and `Err` if it was 0, and none was completed before (R57, R58, R65, R68). In the last of these ticks the line ends, so that
with a stop bit of 1 the next frame meets the premises again (back to back). The model's choice: the sampling point (log entry
8), HOST's items and when they begin (log entry 2), and time in ticks (log entry 7). `TickMovesTheLine` says that
`State.lineTick` is what a step does. -/
def Obligations.ReceiverReadsTheOfferedFrame : Prop :=
  ∀ (s : State) (b : Byte) (stop : Bool),
    s.LineEnds → s.env.rxd = true → s.rxuTick.rxu = .idle → s.Offers (.frame b stop) →
    (∀ k < 10 * Config.BIT_TICKS, (State.lineTick^[1 + k] s).rxDone = s.lineTick.rxDone) ∧
    (State.lineTick^[1 + 10 * Config.BIT_TICKS] s).rxDone = s.lineTick.rxDone ++ [if stop then .byte b else .err] ∧
    (State.lineTick^[1 + 10 * Config.BIT_TICKS] s).rxh = s.rxh ∧
    (State.lineTick^[10 * Config.BIT_TICKS] s).LineEnds ∧ (State.lineTick^[10 * Config.BIT_TICKS] s).env.rxd = stop ∧
    (State.lineTick^[10 * Config.BIT_TICKS] s).rxuTick.rxu = (if stop then .idle else .heldLow)

/-- End-of-stream, offered next by HOST as a fixed item or one of its free input, on an idle line or right behind another item
or a bad stop bit, takes HOST a frame time, during which the line stays at 1 and RXU is in no frame, so that it comes with no
frame on the line, and is then a completed item (R66, R68). In the last of these ticks the line ends. The model's choice: that
it takes exactly a frame time (log entry 2), in ticks (log entry 7). `TickMovesTheLine` says that `State.lineTick` is what a
step does. -/
def Obligations.EndOfStreamArrivesInAFrameTime : Prop :=
  ∀ s : State, s.LineEnds → (s.rxuTick.rxu = .idle ∨ s.rxuTick.rxu = .heldLow) → s.Offers .eos →
    (∀ k < 10 * Config.BIT_TICKS,
      (State.lineTick^[1 + k] s).env.rxd = true ∧
      (State.lineTick^[1 + k] s).rxu = (if k = 0 then s.rxuTick.rxu else .idle) ∧
      (State.lineTick^[1 + k] s).rxDone = s.lineTick.rxDone) ∧
    (State.lineTick^[1 + 10 * Config.BIT_TICKS] s).rxDone = s.lineTick.rxDone ++ [.eos] ∧
    (State.lineTick^[1 + 10 * Config.BIT_TICKS] s).rxh = s.rxh ∧
    (State.lineTick^[10 * Config.BIT_TICKS] s).LineEnds ∧ (State.lineTick^[10 * Config.BIT_TICKS] s).env.rxd = true ∧
    (State.lineTick^[10 * Config.BIT_TICKS] s).rxuTick.rxu = .idle

/-- A break HOST offers next, be it a fixed item or one of its free input, on an idle line or right behind another item, is one
`Err`, however long the line is held at 0, and whatever HOST offers after it: RXU ignores the line until it has been at 1 for a
tick, and only then can a fall of it begin a frame; and it ignores any line held at 0 after a stop bit of 0 (R67). The model's
choice: the tick in which `Err` is completed and the tick in which RXU is idle again (log entry 8), the shape of a break and
what may follow it (log entry 2), and time in ticks (log entry 7). `TickMovesTheLine` says that `State.lineTick` is what a step
does. -/
def Obligations.BreakIsOneReadError : Prop :=
  (∀ (s : State) (n : Nat) (items : List HostItem) (more : Option Nat),
    s.LineEnds → s.env.rxd = true → s.rxuTick.rxu = .idle →
    nextLine [] s.env.items s.env.more = (itemSegs (.lineBreak n), items, more) →
    (∀ k < 10 * Config.BIT_TICKS, (State.lineTick^[1 + k] s).rxDone = s.lineTick.rxDone) ∧
    (∀ k ≤ n, (State.lineTick^[1 + 10 * Config.BIT_TICKS + k] s).env.rxd = false) ∧
    (∀ k ≤ n + 1,
      (State.lineTick^[1 + 10 * Config.BIT_TICKS + k] s).rxu = .heldLow ∧
      (State.lineTick^[1 + 10 * Config.BIT_TICKS + k] s).rxDone = s.lineTick.rxDone ++ [.err]) ∧
    (State.lineTick^[1 + 10 * Config.BIT_TICKS + (n + 1)] s).env.rxd = lineLevel (nextLine [] items more).1 ∧
    (State.lineTick^[1 + 10 * Config.BIT_TICKS + (n + 2)] s).rxDone = s.lineTick.rxDone ++ [.err] ∧
    (State.lineTick^[1 + 10 * Config.BIT_TICKS + (n + 2)] s).rxu =
      (if (State.lineTick^[1 + 10 * Config.BIT_TICKS + (n + 1)] s).env.rxd then
        if (State.lineTick^[1 + 10 * Config.BIT_TICKS + (n + 2)] s).env.rxd then .idle else .frame 0 0
      else .heldLow)) ∧
  ∀ s : State, s.rxu = .heldLow → s.env.rxd = false →
    s.lineTick.rxu = .heldLow ∧
    s.lineTick.rxDone =
      s.rxDone ++ (if segEnds s.env.lineCtr s.env.line then segDelivers s.env.line else [])

/-- R107: the read empties RXH; a byte goes to DISPATCH, the other items to the stream-fault path, in each case with the
sequencer's own time still to pass. That it passes there is the model's choice (log entry 5). -/
def Obligations.ReadTakesTheItem : Prop :=
  ∀ (s : State) (item : RxItem) (own : Nat), s.turn = .seq → s.ph = .poll (.read own) → s.rxh = some item →
    ∃ t, step s = .next t ∧ t.rxh = none ∧ t.latch = s.latch ∧ t.trace = s.trace ∧
      match item with
      | .byte b => t.ph = .dispatch b own
      | .eos => t.ph = .poll (.faulted .endOfStream own)
      | .err => t.ph = .poll (.faulted .readError own)

/-- The read cannot hold (R107): where SEQ is to read, an item is in RXH, in every state each step leads to, and there SEQ can
act and no time passes, so that RXH is full no longer than until the poll (R138; log entry 5 is the reading of it). -/
def Obligations.ReadNeverHolds : Prop :=
  (∀ s t : State, s.ReadHasItem → step s = .next t → t.ReadHasItem) ∧
  ∀ (s : State) (own : Nat), s.ReadHasItem → s.ls = .running → s.ph = .poll (.read own) →
    s.seqReady = true ∧ s.turn ≠ .clock

/-- The one poll of an iteration sees an item exactly when RXH holds one, and writes no RXH (R106). The own time drawn for the
iteration is within its bound (R145); where it passes is the model's (log entry 5). -/
def Obligations.PollSeesRxh : Prop :=
  ∀ s : State, s.turn = .seq → s.ph = .poll .sample → ∃ t, step s = .next t ∧ t.rxh = s.rxh ∧ t.latch = s.latch ∧
    (s.rxh = none → ∃ own, t.ph = .poll (.nothing own) ∧ own ≤ Config.T_SEQ_MAX_TICKS) ∧
    (s.rxh ≠ none → ∃ own, t.ph = .poll (.read own) ∧ own ≤ Config.T_SEQ_MAX_TICKS)

/-- R46: an item completed in the clock cycle of the poll is seen by it, or is still to be stored after it; it is not lost
in either order. Which of the two it is, is a free value (log entry 3). -/
def Obligations.PollRaceLosesNoItem : Prop :=
  ∀ (s : State) (item : RxItem), s.env.rst = false → s.ls = .running → s.ph = .poll .sample → s.rxh = none →
    s.rxDone = [item] → ∃ t, step s = .next t ∧
      ((t.ph = .poll .sample ∧ t.rxh = some item ∧ t.rxDone = []) ∨
       (∃ own, t.ph = .poll (.nothing own) ∧ t.rxh = none ∧ t.rxDone = [item]))

/-! ### Pulse -/

/-- R97, R99, R101: a pulse slot is recorded with the current DLY; for DLY > 0 PWM_OUT is 1 for exactly DLY microseconds of
ticks and then 0; for DLY = 0 it does not rise. The model's choice: SEQ's actions and RXU's store are steps that take no
time (log entry 1), and time goes in ticks (log entry 7). -/
def Obligations.PulseLastsExactlyDly : Prop :=
  (∀ s : State, s.env.rst = false → s.ls = .running → s.ph = .pulse .enter →
    (0 < s.dly.toNat → step s = .next { s with
      trace := s.trace ++ [.pulse s.dly], pwmOut := true, pulseCtr := 0, ph := .pulse (.high s.dly) }) ∧
    (s.dly.toNat = 0 → step s = .next { s with trace := s.trace ++ [.pulse 0], ph := .wait, waitCtr := 0 })) ∧
  ∀ (s : State) (d : Word), s.env.rst = false → s.ls = .running → s.ph = .pulse (.high d) →
    s.pulseCtr ≤ d.toNat * Config.US_TICKS → ∃ t, step s = .next t ∧ (t.env.rst = false →
      (s.turn = .clock ∧ s.pulseCtr < d.toNat * Config.US_TICKS ∧ t.ph = s.ph ∧ t.pwmOut = s.pwmOut ∧
        t.pulseCtr = s.pulseCtr + 1) ∨
      (s.turn = .rxu ∧ t.ph = s.ph ∧ t.pwmOut = s.pwmOut ∧ t.pulseCtr = s.pulseCtr ∧
        t.rxDone.length < s.rxDone.length) ∨
      (s.turn = .seq ∧ s.pulseCtr = d.toNat * Config.US_TICKS ∧ t.ph = .wait ∧ t.pwmOut = false))

/-- PH is STOPPED exactly when LS is HALTED, and PWM_OUT is 1 exactly in the high phase of a pulse: every step keeps both
(R27, R31, R102). -/
def Obligations.PwmIsHighOnlyInAPulse : Prop :=
  ∀ s t : State, s.RegistersAgree → step s = .next t → t.RegistersAgree

/-! ### Sequencer -/

/-- WAIT lasts exactly 20000 microseconds of ticks and then records it (R105). The model's choice: RXU's store is a step that
takes no time (log entry 1), and time goes in ticks (log entry 7). -/
def Obligations.WaitLastsExactly20000Us : Prop :=
  ∀ s : State, s.env.rst = false → s.ls = .running → s.ph = .wait → s.waitCtr ≤ 20000 * Config.US_TICKS →
    ∃ t, step s = .next t ∧ (t.env.rst = false →
      (s.turn = .clock ∧ s.waitCtr < 20000 * Config.US_TICKS ∧ t.ph = .wait ∧ t.waitCtr = s.waitCtr + 1) ∨
      (s.turn = .rxu ∧ t.ph = .wait ∧ t.waitCtr = s.waitCtr ∧ t.rxDone.length < s.rxDone.length) ∨
      (s.turn = .seq ∧ s.waitCtr = 20000 * Config.US_TICKS ∧ t.ph = .poll .sample ∧
        t.trace = s.trace ++ [.waited 20000]))

/-- R121: the stream fault. The faulting item changes no latch register and raises no pulse; when the own time of the iteration
has passed the diagnostic event is recorded and its bytes are sent; when they are sent the block is HALTED and STOPPED and says
so. That the own time passes between the read and the diagnostic event is the model's choice (log entry 5), and so is that
SEQ's actions take no time (log entry 1). -/
def Obligations.StreamFaultHaltsTheBlock : Prop :=
  (∀ (s : State) (own : Nat) (kind : FaultKind), s.turn = .seq → s.ph = .poll (.read own) →
    s.rxh = some (match kind with | .endOfStream => .eos | .readError => .err) →
    ∃ t, step s = .next t ∧ t = { s with rxh := none, ph := .poll (.faulted kind own), free := t.free }) ∧
  (∀ (s : State) (kind : FaultKind), s.env.rst = false → s.ls = .running → s.ph = .poll (.faulted kind 0) →
    step s = .next { s with
      trace := s.trace ++ [.feedback (.streamFault kind)]
      ph := .poll (.faultSending (Config.FB_ENCODE (.streamFault kind))) }) ∧
  (∀ (s : State) (b : Byte) (bs : List Byte), s.turn = .seq → s.ph = .poll (.faultSending (b :: bs)) →
    step s = .next { s with
      txh := some (b, 0), txBitCtr := 0, trace := s.trace ++ [.txByte b], ph := .poll (.faultSending bs) }) ∧
  ∀ s : State, s.env.rst = false → s.ls = .running → s.ph = .poll (.faultSending []) →
    step s = .next { s with ls := .halted, ph := .stopped, trace := s.trace ++ [.halted] }

/-- LS goes from RUNNING to HALTED only at the end of the stream-fault path (R26, R103). -/
def Obligations.OnlyAStreamFaultHalts : Prop :=
  ∀ s t : State, step s = .next t → s.ls = .running → t.ls = .halted →
    s.ph = .poll (.faultSending []) ∧ t.ph = .stopped

/-- R111, R122: without `rst`, HALTED is for good: SEQ does nothing, the latch, PWM_OUT and the trace stay, TXU finishes
what it has, one tick nearer its end in each tick, and then rests, RXH is filled at most once and never read. Which steps are
ticks is the model's choice (log entries 1 and 7). -/
def Obligations.HaltedIsTerminal : Prop :=
  ∀ s : State, s.RegistersAgree → s.txBitCtr < Config.BIT_TICKS → s.ls = .halted → s.env.rst = false →
    ∃ t, step s = .next t ∧ (t.env.rst = false →
      t.ls = .halted ∧ t.ph = .stopped ∧ t.latch = s.latch ∧ t.pwmOut = false ∧ t.trace = s.trace ∧ t.fb = s.fb ∧
      t.txBitCtr < Config.BIT_TICKS ∧ t.txRemaining = (if s.turn = .clock then s.txRemaining - 1 else s.txRemaining) ∧
      (s.turn ≠ .clock → t.rxDone.length < s.rxDone.length) ∧ (s.txh = none → t.txh = none ∧ t.txd = true) ∧
      ∀ x, s.rxh = some x → t.rxh = some x)

/-- A final run stays final, and its result, the trace and the latch, no longer changes, unless `rst` starts a new run
(R114). -/
def Obligations.FinalRunKeepsItsResult : Prop :=
  ∀ s : State, s.Final → s.env.rst = false →
    ∃ t, step s = .next t ∧ (t.env.rst = false → t.Final ∧ t.trace = s.trace ∧ t.latch = s.latch)

/-- The trace only grows, unless `rst` starts a new run (R33). -/
def Obligations.TraceIsAppendOnly : Prop :=
  ∀ s t : State, step s = .next t → s.env.rst = false → t.env.rst = false → s.trace <+: t.trace

/-- Every trace is a run of the loop of R104, and every step keeps it so: the exact wait, at most one command event with its
message, one pulse slot, again; a stream fault ends it (R104, R110, R111, R112). That the event stands in `State.fb` exactly at
the start of FEEDBACK is the model's choice (log entry 6). -/
def Obligations.StepsKeepTraceInTheLoop : Prop :=
  ∀ s t : State, s.TraceFollowsLoop → s.EventPending → step s = .next t → t.TraceFollowsLoop ∧ t.EventPending

/-- R112: in each iteration, from one refresh wait to the next, there is at most one command event and at most one pulse slot,
and exactly one pulse slot where a next iteration begins; so it is in every state whose trace follows the loop, and in every
state a step leads to from one. -/
def Obligations.AtMostOneEventAndPulsePerWait : Prop :=
  (∀ s : State, s.TraceFollowsLoop → OncePerWait s.trace) ∧
  ∀ s t : State, s.TraceFollowsLoop → s.EventPending → step s = .next t → OncePerWait t.trace

/-- From reset with HOST quiet, STARTUP sends its bytes and holds its time, touches no latch register, and the loop starts
(R133). The model's choice: HOST quiet (log entry 2), time in ticks on the clock `State.now` (log entries 4 and 7), and the
hold beginning when the last byte is handed over (log entry 17). -/
def Obligations.StartupReachesTheLoop : Prop :=
  ∃ k t, Sys2Proof.core.run k { State.reset with env := .quiet } = .next t ∧ t.ph = .wait ∧ t.waitCtr = 0 ∧
    t.ls = .running ∧ t.latch = State.reset.latch ∧ t.pwmOut = false ∧ t.trace = Config.STARTUP_TX.map .txByte ∧
    t.now = (Config.STARTUP_TX.length - 1) * (10 * Config.BIT_TICKS) + Config.T_STARTUP_US * Config.US_TICKS

/-- R113 with no command and HOST quiet: an iteration takes `T_WAIT_US + t_seq + DLY`, records one wait and one pulse, and comes
back to WAIT with the latch as it was. The model's choice: time in ticks on the clock `State.now` (log entries 4 and 7), and
the draw `own` of `t_seq` (log entry 5). -/
def Obligations.IdleIterationPeriod : Prop :=
  ∀ s : State, s.HostQuiet → s.ls = .running → s.ph = .wait → s.waitCtr = 0 → s.rxh = none →
    s.txBitCtr < Config.BIT_TICKS →
    ∃ (k own : Nat) (t : State), Sys2Proof.core.run k s = .next t ∧ own ≤ Config.T_SEQ_MAX_TICKS ∧
      t.ph = .wait ∧ t.waitCtr = 0 ∧ t.ls = .running ∧ t.latch = s.latch ∧ t.HostQuiet ∧ t.rxh = none ∧
      t.trace = s.trace ++ [.waited 20000, .pulse s.dly] ∧
      t.now = s.now + 20000 * Config.US_TICKS + own + s.dly.toNat * Config.US_TICKS

/-- R113 with a command byte in RXH and HOST quiet: the iteration applies it, sends its message and pulses with the new DLY, and
takes `T_WAIT_US + t_seq + t_fb + DLY'`. `t_fb` is ten bit-times for each byte of the message but the first. The model's
choice: time in ticks on the clock `State.now` (log entries 4 and 7), and the draw `own` of `t_seq` (log entry 5). -/
def Obligations.CommandIterationPeriod : Prop :=
  ∀ (s : State) (b : Byte), s.HostQuiet → s.ls = .running → s.ph = .wait → s.waitCtr = 0 →
    s.rxh = some (.byte b) → s.txBitCtr < Config.BIT_TICKS →
    ∃ (k own : Nat) (t : State), Sys2Proof.core.run k s = .next t ∧ own ≤ Config.T_SEQ_MAX_TICKS ∧
      t.ph = .wait ∧ t.waitCtr = 0 ∧ t.ls = .running ∧ t.latch = (interpret s.latch b).1 ∧
      t.HostQuiet ∧ t.rxh = none ∧
      t.trace = s.trace ++ [.waited 20000, .feedback (interpret s.latch b).2] ++
        (Config.FB_ENCODE (interpret s.latch b).2).map .txByte ++ [.pulse t.dly] ∧
      t.now = s.now + 20000 * Config.US_TICKS + own +
        ((Config.FB_ENCODE (interpret s.latch b).2).length - 1) * (10 * Config.BIT_TICKS) + t.dly.toNat * Config.US_TICKS

/-- R113 and R121 with `Eos` or `Err` in RXH and HOST quiet: the iteration waits, takes the item, reports it after its `t_seq`,
sends the message and halts, with the latch as it was and no pulse. The model's choice: time in ticks on the clock `State.now`
(log entries 4 and 7), the draw `own` of `t_seq` and where it passes (log entry 5). -/
def Obligations.FaultIterationHalts : Prop :=
  ∀ (s : State) (kind : FaultKind), s.HostQuiet → s.ls = .running → s.ph = .wait → s.waitCtr = 0 → s.pwmOut = false →
    s.rxh = some (match kind with | .endOfStream => .eos | .readError => .err) → s.txBitCtr < Config.BIT_TICKS →
    ∃ (k own : Nat) (t : State), Sys2Proof.core.run k s = .next t ∧ own ≤ Config.T_SEQ_MAX_TICKS ∧
      t.ph = .stopped ∧ t.ls = .halted ∧ t.latch = s.latch ∧ t.HostQuiet ∧ t.rxh = none ∧ t.pwmOut = false ∧
      t.trace = s.trace ++ [.waited 20000, .feedback (.streamFault kind)] ++
        (Config.FB_ENCODE (.streamFault kind)).map .txByte ++ [.halted] ∧
      t.now = s.now + 20000 * Config.US_TICKS + own +
        ((Config.FB_ENCODE (.streamFault kind)).length - 1) * (10 * Config.BIT_TICKS)

/-- Every duration recorded in the trace has passed on the model's clock (log entry 4), but for the rest of the pulse in
progress: every step keeps it, whatever HOST does (R13, R33). -/
def Obligations.RecordedDurationsHavePassed : Prop :=
  ∀ s t : State, s.DurationsElapsed → step s = .next t → t.DurationsElapsed

/-- The invariant of the block: every step keeps it, from any state that meets it. It collects R24 (range), R89 (INC and OVH), R27
and R31 (LS, PH and PWM_OUT), R97 (the pulse), R34 (counters), R104 (the trace), R68 (the line) and R107 (the read). Clauses of
it are the model's choice: recorded durations against the clock `State.now` (log entry 4), the own time left in POLL and
DISPATCH (log entry 5), the event in hand (log entry 6), and counters in ticks (log entry 7). -/
def Obligations.StepsKeepTheInvariant : Prop := ∀ s t : State, s.Inv → step s = .next t → t.Inv

/-- BAUD is above 10000 and a bit-time is `1 / BAUD` seconds, both on the ticks' own clock, of which a clock cycle is
`CLK_TICKS`; and for every clock, every rational bit rate above 10000 is among the values BAUD can take (R6; that time goes in
ticks is the model's choice, log entry 7). -/
def Obligations.BitTimeIsOneOverBaud : Prop :=
  Config.BAUD > 10000 ∧ Config.BAUD * Config.BIT_TICKS = Config.F_CLK_HZ * Config.CLK_TICKS ∧
  Config.F_CLK_HZ = Config.CYC_US * 1000000 ∧ 0 < Config.F_CLK_HZ ∧
  ∀ (cyc : Nat) (b : Rat), 0 < cyc → 10000 < b →
    ∃ clk k : Nat, 0 < clk ∧ Config.baudOf cyc clk (Config.bitTicksOf cyc clk k) = b

/-! ### The receiver's tick, and FEEDBACK -/

/-- A tick in which `rst` stays 0 moves the receiver and HOST exactly as `State.lineTick` says, so that the statements about
`State.lineTick` are about the machine (R65, R68). The model's choice: a tick is the unit of time (log entry 7), and it leaves
RXH untouched, because a completed item waits in `State.rxDone` for RXU's store, a step of its own (log entries 1 and 3). -/
def Obligations.TickMovesTheLine : Prop :=
  ∀ s : State, s.turn = .clock → s.env.nextRst = false → ∃ t, step s = .next t ∧ t.rxu = s.lineTick.rxu ∧
    t.rxBitCtr = s.lineTick.rxBitCtr ∧ t.rxDone = s.lineTick.rxDone ∧ t.env = s.lineTick.env ∧ t.rxh = s.rxh

/-- R109: FEEDBACK records the event of the command just applied and goes on to send the bytes of that event, whatever HOST
does but `rst`. That the event is held in `State.fb` is the model's choice (log entry 6). -/
def Obligations.FeedbackEmitsTheEvent : Prop :=
  ∀ (s : State) (ev : FeedbackEvent), s.env.rst = false → s.ls = .running → s.ph = .feedback .emit → s.fb = some ev →
    step s = .next { s with
      trace := s.trace ++ [.feedback ev], ph := .feedback (.sending (Config.FB_ENCODE ev)), fb := none }
end

