-- ==== Sys2Proof/Laws/Arith.lean ====
section
/-! SUPPORT. The arithmetic of the commands: clamping, narrowing, rounding and DLY, each as an equation of integers
(spec/00_scope.md R8, R11, R12, spec/10_state.md R22). -/

namespace Sys2Proof.Machine

theorem Word.int_nonneg (w : Word) : 0 ≤ w.int := Int.natCast_nonneg _

theorem Word.int_le (w : Word) : w.int ≤ 65535 := by
  have := w.isLt
  simp only [Word.int]
  omega

/-- A clamp that narrows the range is one of its three arguments, whichever way round the bounds stand (R11). -/
theorem clamp_cases (v lo hi : Int) :
    (v < lo ∧ clamp v lo hi = lo) ∨ (lo ≤ v ∧ hi < v ∧ clamp v lo hi = hi) ∨
      (lo ≤ v ∧ v ≤ hi ∧ clamp v lo hi = v) := by
  unfold clamp
  split
  · exact .inl ⟨‹_›, rfl⟩
  · split
    · exact .inr (.inl ⟨by omega, by omega, rfl⟩)
    · exact .inr (.inr ⟨by omega, by omega, rfl⟩)

theorem clamp_of_mem {v lo hi : Int} (h₁ : lo ≤ v) (h₂ : v ≤ hi) : clamp v lo hi = v := by
  rcases clamp_cases v lo hi with h | h | h <;> omega

theorem clamp_mem {v lo hi : Int} (h : lo ≤ hi) : lo ≤ clamp v lo hi ∧ clamp v lo hi ≤ hi := by
  rcases clamp_cases v lo hi with h | h | h <;> omega

/-- A value in 0 .. 65535 is written unchanged (R8). -/
theorem narrow_toNat {v : Int} (h₀ : 0 ≤ v) (h₁ : v ≤ 65535) : ((narrow v).toNat : Int) = v := by
  have hv : v % 65536 = v := Int.emod_eq_of_lt h₀ (by omega)
  simp only [narrow, BitVec.toNat_ofInt]
  norm_num
  omega

/-- The register a command writes holds exactly the clamped candidate: no write wraps (R90). -/
theorem Latch.bounded_int (l : Latch) (v : Int) : (l.bounded v).int = clamp v l.min.int l.max.int := by
  have := Word.int_nonneg l.min
  have := Word.int_nonneg l.max
  have := Word.int_le l.min
  have := Word.int_le l.max
  apply narrow_toNat <;> rcases clamp_cases v l.min.int l.max.int with h | h | h <;> omega

/-- Half up for the divisor 2 (R12). -/
theorem roundHalfUp_two (p : Int) : roundHalfUp p 2 = (p + 1) / 2 := by
  unfold roundHalfUp
  omega

/-- No tie can occur for the divisor 9 (R12). -/
theorem roundHalfUp_nine (p : Int) : roundHalfUp p 9 = (p + 4) / 9 := by
  unfold roundHalfUp
  omega

/-- The three values a command's clamp can write (R11, R90). -/
theorem Latch.bounded_cases (l : Latch) (v : Int) :
    (v < l.min.int ∧ l.bounded v = l.min) ∨ (l.min.int ≤ v ∧ l.max.int < v ∧ l.bounded v = l.max) ∨
      (l.min.int ≤ v ∧ v ≤ l.max.int ∧ (l.bounded v).int = v) := by
  have h := l.bounded_int v
  rcases clamp_cases v l.min.int l.max.int with c | c | c
  · exact .inl ⟨c.1, BitVec.eq_of_toNat_eq (by simp only [Word.int] at *; omega)⟩
  · exact .inr (.inl ⟨c.1, c.2.1, BitVec.eq_of_toNat_eq (by simp only [Word.int] at *; omega)⟩)
  · exact .inr (.inr ⟨c.1, c.2.1, by omega⟩)

theorem Latch.decCandidate_eq (l : Latch) : l.decCandidate = l.pw.int - l.inc.int := rfl

theorem Latch.incCandidate_eq (l : Latch) : l.incCandidate = l.pw.int + l.inc.int := rfl

/-- An increment above 65535 is skipped (R81). -/
theorem interpretInc_skipped (l : Latch) (h : 65535 < l.pw.int + l.inc.int) : interpretInc l = (l, .width l.pw) := by
  have h' : l.incCandidate > Config.REP_MAX := h
  simp [interpretInc, h']

/-- An increment up to 65535 is clamped (R81). -/
theorem interpretInc_applied (l : Latch) (h : l.pw.int + l.inc.int ≤ 65535) :
    interpretInc l = ({ l with pw := l.bounded l.incCandidate }, .width (l.bounded l.incCandidate)) := by
  have h' : ¬l.incCandidate > Config.REP_MAX := not_lt.mpr h
  simp [interpretInc, h']

theorem Latch.centre_eq (l : Latch) : l.centre = (l.min.int + l.max.int + 1) / 2 := roundHalfUp_two _

theorem Latch.digitPosition_eq (l : Latch) (d : Fin 10) :
    l.digitPosition d = l.min.int + ((d.val : Int) * (l.max.int - l.min.int) + 4) / 9 := by
  rw [Latch.digitPosition, show Config.DIGIT_DIVISOR = 9 from rfl, roundHalfUp_nine]

/-- DLY as a difference of naturals, which is 0 where PW is not above OVH (R22). -/
theorem Latch.dly_toNat (l : Latch) : l.dly.toNat = l.pw.toNat - l.ovh.toNat := by
  have h₁ := l.pw.isLt
  have h₂ := l.ovh.isLt
  unfold Latch.dly
  split
  · rename_i h
    rw [BitVec.lt_def] at h
    rw [BitVec.toNat_sub]
    omega
  · rename_i h
    rw [BitVec.lt_def] at h
    simp
    omega

end Sys2Proof.Machine
end

