-- ==== Sys2Proof/Laws/State.lean ====
section
/-! SUPPORT. For each update of the state, what it does to each field (true by `rfl`, so that no later proof unfolds a
record update). -/

namespace Sys2Proof.Machine

@[simp] theorem State.record_latch (s : State) (e : Event) : (s.record e).latch = s.latch := rfl
@[simp] theorem State.record_ls (s : State) (e : Event) : (s.record e).ls = s.ls := rfl
@[simp] theorem State.record_ph (s : State) (e : Event) : (s.record e).ph = s.ph := rfl
@[simp] theorem State.record_fb (s : State) (e : Event) : (s.record e).fb = s.fb := rfl
@[simp] theorem State.record_rxh (s : State) (e : Event) : (s.record e).rxh = s.rxh := rfl
@[simp] theorem State.record_rxu (s : State) (e : Event) : (s.record e).rxu = s.rxu := rfl
@[simp] theorem State.record_rxBitCtr (s : State) (e : Event) : (s.record e).rxBitCtr = s.rxBitCtr := rfl
@[simp] theorem State.record_rxDone (s : State) (e : Event) : (s.record e).rxDone = s.rxDone := rfl
@[simp] theorem State.record_txh (s : State) (e : Event) : (s.record e).txh = s.txh := rfl
@[simp] theorem State.record_txBitCtr (s : State) (e : Event) : (s.record e).txBitCtr = s.txBitCtr := rfl
@[simp] theorem State.record_pwmOut (s : State) (e : Event) : (s.record e).pwmOut = s.pwmOut := rfl
@[simp] theorem State.record_waitCtr (s : State) (e : Event) : (s.record e).waitCtr = s.waitCtr := rfl
@[simp] theorem State.record_pulseCtr (s : State) (e : Event) : (s.record e).pulseCtr = s.pulseCtr := rfl
@[simp] theorem State.record_trace (s : State) (e : Event) : (s.record e).trace = s.trace ++ [e] := rfl
@[simp] theorem State.record_now (s : State) (e : Event) : (s.record e).now = s.now := rfl
@[simp] theorem State.record_free (s : State) (e : Event) : (s.record e).free = s.free := rfl
@[simp] theorem State.record_env (s : State) (e : Event) : (s.record e).env = s.env := rfl

@[simp] theorem State.commit_latch (s : State) (r : Latch × FeedbackEvent) : (s.commit r).latch = r.1 := rfl
@[simp] theorem State.commit_ls (s : State) (r : Latch × FeedbackEvent) : (s.commit r).ls = s.ls := rfl
@[simp] theorem State.commit_ph (s : State) (r : Latch × FeedbackEvent) : (s.commit r).ph = s.ph := rfl
@[simp] theorem State.commit_fb (s : State) (r : Latch × FeedbackEvent) : (s.commit r).fb = some r.2 := rfl
@[simp] theorem State.commit_rxh (s : State) (r : Latch × FeedbackEvent) : (s.commit r).rxh = s.rxh := rfl
@[simp] theorem State.commit_rxu (s : State) (r : Latch × FeedbackEvent) : (s.commit r).rxu = s.rxu := rfl
@[simp] theorem State.commit_rxBitCtr (s : State) (r : Latch × FeedbackEvent) : (s.commit r).rxBitCtr = s.rxBitCtr := rfl
@[simp] theorem State.commit_rxDone (s : State) (r : Latch × FeedbackEvent) : (s.commit r).rxDone = s.rxDone := rfl
@[simp] theorem State.commit_txh (s : State) (r : Latch × FeedbackEvent) : (s.commit r).txh = s.txh := rfl
@[simp] theorem State.commit_txBitCtr (s : State) (r : Latch × FeedbackEvent) : (s.commit r).txBitCtr = s.txBitCtr := rfl
@[simp] theorem State.commit_pwmOut (s : State) (r : Latch × FeedbackEvent) : (s.commit r).pwmOut = s.pwmOut := rfl
@[simp] theorem State.commit_waitCtr (s : State) (r : Latch × FeedbackEvent) : (s.commit r).waitCtr = s.waitCtr := rfl
@[simp] theorem State.commit_pulseCtr (s : State) (r : Latch × FeedbackEvent) : (s.commit r).pulseCtr = s.pulseCtr := rfl
@[simp] theorem State.commit_trace (s : State) (r : Latch × FeedbackEvent) : (s.commit r).trace = s.trace := rfl
@[simp] theorem State.commit_now (s : State) (r : Latch × FeedbackEvent) : (s.commit r).now = s.now := rfl
@[simp] theorem State.commit_free (s : State) (r : Latch × FeedbackEvent) : (s.commit r).free = s.free := rfl
@[simp] theorem State.commit_env (s : State) (r : Latch × FeedbackEvent) : (s.commit r).env = s.env := rfl

@[simp] theorem State.txSend_latch (s : State) (b : Byte) : (s.txSend b).latch = s.latch := rfl
@[simp] theorem State.txSend_ls (s : State) (b : Byte) : (s.txSend b).ls = s.ls := rfl
@[simp] theorem State.txSend_ph (s : State) (b : Byte) : (s.txSend b).ph = s.ph := rfl
@[simp] theorem State.txSend_fb (s : State) (b : Byte) : (s.txSend b).fb = s.fb := rfl
@[simp] theorem State.txSend_rxh (s : State) (b : Byte) : (s.txSend b).rxh = s.rxh := rfl
@[simp] theorem State.txSend_rxu (s : State) (b : Byte) : (s.txSend b).rxu = s.rxu := rfl
@[simp] theorem State.txSend_rxBitCtr (s : State) (b : Byte) : (s.txSend b).rxBitCtr = s.rxBitCtr := rfl
@[simp] theorem State.txSend_rxDone (s : State) (b : Byte) : (s.txSend b).rxDone = s.rxDone := rfl
@[simp] theorem State.txSend_txh (s : State) (b : Byte) : (s.txSend b).txh = some (b, 0) := rfl
@[simp] theorem State.txSend_txBitCtr (s : State) (b : Byte) : (s.txSend b).txBitCtr = 0 := rfl
@[simp] theorem State.txSend_pwmOut (s : State) (b : Byte) : (s.txSend b).pwmOut = s.pwmOut := rfl
@[simp] theorem State.txSend_waitCtr (s : State) (b : Byte) : (s.txSend b).waitCtr = s.waitCtr := rfl
@[simp] theorem State.txSend_pulseCtr (s : State) (b : Byte) : (s.txSend b).pulseCtr = s.pulseCtr := rfl
@[simp] theorem State.txSend_trace (s : State) (b : Byte) : (s.txSend b).trace = s.trace ++ [.txByte b] := rfl
@[simp] theorem State.txSend_now (s : State) (b : Byte) : (s.txSend b).now = s.now := rfl
@[simp] theorem State.txSend_free (s : State) (b : Byte) : (s.txSend b).free = s.free := rfl
@[simp] theorem State.txSend_env (s : State) (b : Byte) : (s.txSend b).env = s.env := rfl

@[simp] theorem State.emit_latch (s : State) (ev : FeedbackEvent) (k : List Byte → Phase) : (s.emit ev k).latch = s.latch := rfl
@[simp] theorem State.emit_ls (s : State) (ev : FeedbackEvent) (k : List Byte → Phase) : (s.emit ev k).ls = s.ls := rfl
@[simp] theorem State.emit_ph (s : State) (ev : FeedbackEvent) (k : List Byte → Phase) : (s.emit ev k).ph = k (Config.FB_ENCODE ev) := rfl
@[simp] theorem State.emit_fb (s : State) (ev : FeedbackEvent) (k : List Byte → Phase) : (s.emit ev k).fb = s.fb := rfl
@[simp] theorem State.emit_rxh (s : State) (ev : FeedbackEvent) (k : List Byte → Phase) : (s.emit ev k).rxh = s.rxh := rfl
@[simp] theorem State.emit_rxu (s : State) (ev : FeedbackEvent) (k : List Byte → Phase) : (s.emit ev k).rxu = s.rxu := rfl
@[simp] theorem State.emit_rxBitCtr (s : State) (ev : FeedbackEvent) (k : List Byte → Phase) : (s.emit ev k).rxBitCtr = s.rxBitCtr := rfl
@[simp] theorem State.emit_rxDone (s : State) (ev : FeedbackEvent) (k : List Byte → Phase) : (s.emit ev k).rxDone = s.rxDone := rfl
@[simp] theorem State.emit_txh (s : State) (ev : FeedbackEvent) (k : List Byte → Phase) : (s.emit ev k).txh = s.txh := rfl
@[simp] theorem State.emit_txBitCtr (s : State) (ev : FeedbackEvent) (k : List Byte → Phase) : (s.emit ev k).txBitCtr = s.txBitCtr := rfl
@[simp] theorem State.emit_pwmOut (s : State) (ev : FeedbackEvent) (k : List Byte → Phase) : (s.emit ev k).pwmOut = s.pwmOut := rfl
@[simp] theorem State.emit_waitCtr (s : State) (ev : FeedbackEvent) (k : List Byte → Phase) : (s.emit ev k).waitCtr = s.waitCtr := rfl
@[simp] theorem State.emit_pulseCtr (s : State) (ev : FeedbackEvent) (k : List Byte → Phase) : (s.emit ev k).pulseCtr = s.pulseCtr := rfl
@[simp] theorem State.emit_trace (s : State) (ev : FeedbackEvent) (k : List Byte → Phase) : (s.emit ev k).trace = s.trace ++ [.feedback ev] := rfl
@[simp] theorem State.emit_now (s : State) (ev : FeedbackEvent) (k : List Byte → Phase) : (s.emit ev k).now = s.now := rfl
@[simp] theorem State.emit_free (s : State) (ev : FeedbackEvent) (k : List Byte → Phase) : (s.emit ev k).free = s.free := rfl
@[simp] theorem State.emit_env (s : State) (ev : FeedbackEvent) (k : List Byte → Phase) : (s.emit ev k).env = s.env := rfl

@[simp] theorem State.halt_latch (s : State) : s.halt.latch = s.latch := rfl
@[simp] theorem State.halt_ls (s : State) : s.halt.ls = .halted := rfl
@[simp] theorem State.halt_ph (s : State) : s.halt.ph = .stopped := rfl
@[simp] theorem State.halt_fb (s : State) : s.halt.fb = s.fb := rfl
@[simp] theorem State.halt_rxh (s : State) : s.halt.rxh = s.rxh := rfl
@[simp] theorem State.halt_rxu (s : State) : s.halt.rxu = s.rxu := rfl
@[simp] theorem State.halt_rxBitCtr (s : State) : s.halt.rxBitCtr = s.rxBitCtr := rfl
@[simp] theorem State.halt_rxDone (s : State) : s.halt.rxDone = s.rxDone := rfl
@[simp] theorem State.halt_txh (s : State) : s.halt.txh = s.txh := rfl
@[simp] theorem State.halt_txBitCtr (s : State) : s.halt.txBitCtr = s.txBitCtr := rfl
@[simp] theorem State.halt_pwmOut (s : State) : s.halt.pwmOut = s.pwmOut := rfl
@[simp] theorem State.halt_waitCtr (s : State) : s.halt.waitCtr = s.waitCtr := rfl
@[simp] theorem State.halt_pulseCtr (s : State) : s.halt.pulseCtr = s.pulseCtr := rfl
@[simp] theorem State.halt_trace (s : State) : s.halt.trace = s.trace ++ [.halted] := rfl
@[simp] theorem State.halt_now (s : State) : s.halt.now = s.now := rfl
@[simp] theorem State.halt_free (s : State) : s.halt.free = s.free := rfl
@[simp] theorem State.halt_env (s : State) : s.halt.env = s.env := rfl

@[simp] theorem State.startWait_latch (s : State) : s.startWait.latch = s.latch := rfl
@[simp] theorem State.startWait_ls (s : State) : s.startWait.ls = s.ls := rfl
@[simp] theorem State.startWait_ph (s : State) : s.startWait.ph = .wait := rfl
@[simp] theorem State.startWait_fb (s : State) : s.startWait.fb = s.fb := rfl
@[simp] theorem State.startWait_rxh (s : State) : s.startWait.rxh = s.rxh := rfl
@[simp] theorem State.startWait_rxu (s : State) : s.startWait.rxu = s.rxu := rfl
@[simp] theorem State.startWait_rxBitCtr (s : State) : s.startWait.rxBitCtr = s.rxBitCtr := rfl
@[simp] theorem State.startWait_rxDone (s : State) : s.startWait.rxDone = s.rxDone := rfl
@[simp] theorem State.startWait_txh (s : State) : s.startWait.txh = s.txh := rfl
@[simp] theorem State.startWait_txBitCtr (s : State) : s.startWait.txBitCtr = s.txBitCtr := rfl
@[simp] theorem State.startWait_pwmOut (s : State) : s.startWait.pwmOut = s.pwmOut := rfl
@[simp] theorem State.startWait_waitCtr (s : State) : s.startWait.waitCtr = 0 := rfl
@[simp] theorem State.startWait_pulseCtr (s : State) : s.startWait.pulseCtr = s.pulseCtr := rfl
@[simp] theorem State.startWait_trace (s : State) : s.startWait.trace = s.trace := rfl
@[simp] theorem State.startWait_now (s : State) : s.startWait.now = s.now := rfl
@[simp] theorem State.startWait_free (s : State) : s.startWait.free = s.free := rfl
@[simp] theorem State.startWait_env (s : State) : s.startWait.env = s.env := rfl

@[simp] theorem State.pwmEnd_latch (s : State) : s.pwmEnd.latch = s.latch := rfl
@[simp] theorem State.pwmEnd_ls (s : State) : s.pwmEnd.ls = s.ls := rfl
@[simp] theorem State.pwmEnd_ph (s : State) : s.pwmEnd.ph = .wait := rfl
@[simp] theorem State.pwmEnd_fb (s : State) : s.pwmEnd.fb = s.fb := rfl
@[simp] theorem State.pwmEnd_rxh (s : State) : s.pwmEnd.rxh = s.rxh := rfl
@[simp] theorem State.pwmEnd_rxu (s : State) : s.pwmEnd.rxu = s.rxu := rfl
@[simp] theorem State.pwmEnd_rxBitCtr (s : State) : s.pwmEnd.rxBitCtr = s.rxBitCtr := rfl
@[simp] theorem State.pwmEnd_rxDone (s : State) : s.pwmEnd.rxDone = s.rxDone := rfl
@[simp] theorem State.pwmEnd_txh (s : State) : s.pwmEnd.txh = s.txh := rfl
@[simp] theorem State.pwmEnd_txBitCtr (s : State) : s.pwmEnd.txBitCtr = s.txBitCtr := rfl
@[simp] theorem State.pwmEnd_pwmOut (s : State) : s.pwmEnd.pwmOut = false := rfl
@[simp] theorem State.pwmEnd_waitCtr (s : State) : s.pwmEnd.waitCtr = 0 := rfl
@[simp] theorem State.pwmEnd_pulseCtr (s : State) : s.pwmEnd.pulseCtr = 0 := rfl
@[simp] theorem State.pwmEnd_trace (s : State) : s.pwmEnd.trace = s.trace := rfl
@[simp] theorem State.pwmEnd_now (s : State) : s.pwmEnd.now = s.now := rfl
@[simp] theorem State.pwmEnd_free (s : State) : s.pwmEnd.free = s.free := rfl
@[simp] theorem State.pwmEnd_env (s : State) : s.pwmEnd.env = s.env := rfl

@[simp] theorem State.powerOn_latch (s : State) : s.powerOn.latch = State.reset.latch := rfl
@[simp] theorem State.powerOn_ls (s : State) : s.powerOn.ls = State.reset.ls := rfl
@[simp] theorem State.powerOn_ph (s : State) : s.powerOn.ph = State.reset.ph := rfl
@[simp] theorem State.powerOn_fb (s : State) : s.powerOn.fb = State.reset.fb := rfl
@[simp] theorem State.powerOn_rxh (s : State) : s.powerOn.rxh = State.reset.rxh := rfl
@[simp] theorem State.powerOn_rxu (s : State) : s.powerOn.rxu = State.reset.rxu := rfl
@[simp] theorem State.powerOn_rxBitCtr (s : State) : s.powerOn.rxBitCtr = State.reset.rxBitCtr := rfl
@[simp] theorem State.powerOn_rxDone (s : State) : s.powerOn.rxDone = State.reset.rxDone := rfl
@[simp] theorem State.powerOn_txh (s : State) : s.powerOn.txh = State.reset.txh := rfl
@[simp] theorem State.powerOn_txBitCtr (s : State) : s.powerOn.txBitCtr = State.reset.txBitCtr := rfl
@[simp] theorem State.powerOn_pwmOut (s : State) : s.powerOn.pwmOut = State.reset.pwmOut := rfl
@[simp] theorem State.powerOn_waitCtr (s : State) : s.powerOn.waitCtr = State.reset.waitCtr := rfl
@[simp] theorem State.powerOn_pulseCtr (s : State) : s.powerOn.pulseCtr = State.reset.pulseCtr := rfl
@[simp] theorem State.powerOn_trace (s : State) : s.powerOn.trace = State.reset.trace := rfl
@[simp] theorem State.powerOn_now (s : State) : s.powerOn.now = State.reset.now := rfl
@[simp] theorem State.powerOn_free (s : State) : s.powerOn.free = s.free := rfl
@[simp] theorem State.powerOn_env (s : State) : s.powerOn.env = s.env := rfl

/-- A positive pulse starts a high phase (R97). -/
theorem State.pwmPulse_pos (s : State) {d : Word} (h : 0 < d) :
    s.pwmPulse d =
      { s with trace := s.trace ++ [.pulse d], pwmOut := true, pulseCtr := 0, ph := .pulse (.high d) } :=
  if_pos h

/-- A pulse of no length has no high phase (R101). -/
theorem State.pwmPulse_zero (s : State) :
    s.pwmPulse 0 = { s with trace := s.trace ++ [.pulse 0], ph := .wait, waitCtr := 0 } := by
  simp [State.pwmPulse]

/-- Raising the stream fault is emitting its event in POLL (R121). -/
theorem State.raiseStreamFault_eq (s : State) (kind : FaultKind) :
    s.raiseStreamFault kind = s.emit (.streamFault kind) (fun bs => .poll (.faultSending bs)) := rfl

/-- `RxTake` on a full RXH empties it and gives its item (R62). -/
theorem State.rxTake_some (s : State) {item : RxItem} (h : s.rxh = some item) :
    s.rxTake = some (item, { s with rxh := none }) := by
  simp [State.rxTake, h]

end Sys2Proof.Machine
end

