-- ==== Sys2Proof/Laws/Commands.lean ====
section
/-! SUPPORT. What a command does, said once: the decoder's function of the latch, committed (spec/41_command_interpreter.md
R76). -/

namespace Sys2Proof.Machine

/-- Every command commits the decoder's new latch and event, and does nothing else (R76, R108). -/
theorem exec_eq_commit (i : Instr) (s : State) : exec i s = .next (s.commit (interpretInstr i s.latch)) := by
  cases i <;> rfl

/-- A digit command is the interpolation for its digit (R87). -/
theorem interpretInstr_digit (d : Fin 10) (l : Latch) : interpretInstr (.digit d) l = interpretDigit d l := by
  fin_cases d <;> rfl

/-- No command's event is a stream fault's (R78). -/
theorem interpretInstr_event (i : Instr) (l : Latch) (k : FaultKind) : (interpretInstr i l).2 ≠ .streamFault k := by
  cases i <;> simp [interpretInstr, interpretDec, interpretInc, interpretCtr, interpretRst, interpretSmin,
    interpretSmax, interpretDigit, interpretInv]

end Sys2Proof.Machine
end

