-- ==== Sys2Proof/Laws/Config.lean ====
section
/-! SUPPORT. What every admissible value of the OPEN parameters satisfies (spec/00_scope.md R6, R13). -/

namespace Sys2Proof.Config

theorem cyc_us_pos : 0 < CYC_US := Nat.succ_pos _

theorem clk_ticks_pos : 0 < CLK_TICKS := Nat.succ_pos _

theorem us_ticks_pos : 0 < US_TICKS := Nat.mul_pos cyc_us_pos clk_ticks_pos

theorem bit_ticks_pos : 0 < BIT_TICKS := Nat.succ_pos _

theorem bitTicksOf_lt {cyc clk : Nat} (hc : 0 < cyc) (hk : 0 < clk) (k : Nat) :
    bitTicksOf cyc clk k < 100 * cyc * clk := by
  have h : 0 < cyc * clk := Nat.mul_pos hc hk
  have h' : 100 * cyc * clk = 100 * (cyc * clk) := Nat.mul_assoc _ _ _
  have := Nat.mod_lt k (show 0 < 100 * cyc * clk - 1 by omega)
  unfold bitTicksOf
  omega

/-- `BAUD > 10000` in ticks (R6). -/
theorem bit_ticks_lt : BIT_TICKS < 100 * US_TICKS := by
  unfold US_TICKS
  rw [← Nat.mul_assoc]
  exact bitTicksOf_lt cyc_us_pos clk_ticks_pos _

theorem t_wait_ticks_eq : T_WAIT_TICKS = 20000 * US_TICKS := rfl

theorem t_wait_ticks_pos : 0 < T_WAIT_TICKS := by
  have := us_ticks_pos
  rw [t_wait_ticks_eq]
  omega

/-- A transmission that has begun is over before the refresh wait is (R113). -/
theorem frame_lt_wait : 10 * BIT_TICKS < T_WAIT_TICKS := by
  have := bit_ticks_lt
  rw [t_wait_ticks_eq]
  omega

/-- The sequencer's own time is within its bound (R145). -/
theorem ownTime_le (k : Nat) : ownTime k ≤ T_SEQ_MAX_TICKS :=
  Nat.lt_succ_iff.mp (Nat.mod_lt _ (Nat.succ_pos _))

end Sys2Proof.Config
end

