-- ==== Sys2Proof/Laws/Decode.lean ====
section
/-! SUPPORT. The decoder row by row (spec/30_encoding.md R52). -/

namespace Sys2Proof

@[simp] theorem decode_cons (b : Byte) (rest : List Byte) : decode (b :: rest) = .instr (decodeByte b) rest := rfl

/-- A digit byte decodes to its digit command (R51). -/
theorem decodeByte_digit (d : Fin 10) : decodeByte (encodeByte (.digit d)) = .digit d := by
  revert d
  decide

/-- A byte that is no command byte is invalid (R54). -/
theorem decodeByte_invalid (b : Byte) (h : commandBytes.contains b = false) : decodeByte b = .inv b := by
  revert b
  decide

end Sys2Proof
end

