-- ==== Sys2Proof/Laws/Step.lean ====
section
/-! SUPPORT. What each part of a step can do, said once: which fields each agent's tick writes, who can move when,
and the four cases of a step (spec/20_memory.md R44 to R46). -/

namespace Sys2Proof.Machine

/-- TXU's tick writes TXH and its counter only (R64). -/
theorem State.txuTick_form (s : State) : ∃ x c, s.txuTick = { s with txh := x, txBitCtr := c } := by
  unfold State.txuTick
  split
  · exact ⟨s.txh, s.txBitCtr, rfl⟩
  · split
    · exact ⟨s.txh, s.txBitCtr + 1, rfl⟩
    · split
      · exact ⟨_, 0, rfl⟩
      · exact ⟨none, 0, rfl⟩

/-- RXU's tick writes its shift state, its counter and the completed items only (R65). -/
theorem State.rxuTick_form (s : State) :
    ∃ u c q, s.rxuTick = { s with rxu := u, rxBitCtr := c, rxDone := s.rxDone ++ q } := by
  unfold State.rxuTick
  split
  · exact ⟨s.rxu, s.rxBitCtr, [], by simp⟩
  · split
    · exact ⟨.idle, s.rxBitCtr, [], by simp⟩
    · exact ⟨s.rxu, s.rxBitCtr, [], by simp⟩
  · split
    · exact ⟨s.rxu, s.rxBitCtr + 1, [], by simp⟩
    · split
      · exact ⟨_, 0, [], by simp; rfl⟩
      · exact ⟨_, 0, [_], rfl⟩

/-- The falling-edge test writes RXU's shift state and counter only (R65). -/
theorem State.rxuEdge_form (s : State) (v : Bool) : ∃ u c, s.rxuEdge v = { s with rxu := u, rxBitCtr := c } := by
  unfold State.rxuEdge
  split
  · split
    · exact ⟨_, _, rfl⟩
    · exact ⟨s.rxu, s.rxBitCtr, rfl⟩
  · exact ⟨s.rxu, s.rxBitCtr, rfl⟩
  · exact ⟨s.rxu, s.rxBitCtr, rfl⟩

/-- HOST's tick writes HOST's side and may complete an end-of-stream (R66, R68). -/
theorem State.hostTick_form (s : State) : ∃ e q, s.hostTick = { s with env := e, rxDone := s.rxDone ++ q } := by
  unfold State.hostTick
  dsimp only
  split
  · exact ⟨_, _, rfl⟩
  · exact ⟨_, [], by rw [List.append_nil]⟩

/-- HOST's tick puts the next level on `rst` (R130). -/
@[simp] theorem State.hostTick_rst (s : State) : s.hostTick.env.rst = s.env.nextRst := by
  unfold State.hostTick
  dsimp only
  split <;> rfl

@[simp] theorem State.hostTick_rstPlan (s : State) : s.hostTick.env.rstPlan = s.env.rstPlan.tail := by
  unfold State.hostTick
  dsimp only
  split <;> rfl

@[simp] theorem State.hostTick_rstMore (s : State) : s.hostTick.env.rstMore = s.env.nextRstMore := by
  unfold State.hostTick
  dsimp only
  split <;> rfl

/-- HOST's tick leaves on `rxd` the level it is driving. -/
theorem State.hostTick_line (s : State) (h : s.env.rxd = lineLevel s.env.line) :
    s.hostTick.env.rxd = lineLevel s.hostTick.env.line := by
  unfold State.hostTick
  dsimp only
  split
  · rfl
  · exact h

/-- SEQ's timers write PH and the two SEQ counters only (R34). -/
theorem State.seqTick_form (s : State) :
    ∃ p w c, s.seqTick = { s with ph := p, waitCtr := w, pulseCtr := c } := by
  unfold State.seqTick
  split
  · exact ⟨s.ph, s.waitCtr, s.pulseCtr, rfl⟩
  · split <;> first
      | exact ⟨s.ph, s.waitCtr, s.pulseCtr, rfl⟩
      | exact ⟨_, s.waitCtr, s.pulseCtr, rfl⟩
      | exact ⟨s.ph, _, s.pulseCtr, rfl⟩
      | exact ⟨s.ph, s.waitCtr, _, rfl⟩

/-- RXU's store writes RXH and the completed items only, and counts a free value (R65). -/
theorem State.rxuStore_form (s : State) : ∃ h q k, s.rxuStore = { s with rxh := h, rxDone := q, free := k } := by
  unfold State.rxuStore
  split
  · exact ⟨s.rxh, s.rxDone, s.free, rfl⟩
  · exact ⟨_, _, _, rfl⟩

/-- A tick in which `rst` does not rise, as the agents' parts of it. -/
theorem State.tick_of_low (s : State) (h : s.env.nextRst = false) :
    s.tick = { s.seqTick.txuTick.rxuTick.hostTick.rxuEdge s.env.rxd with now := s.now + 1 } := by
  obtain ⟨p, w, c, h₁⟩ := s.seqTick_form
  obtain ⟨x, c', h₂⟩ := s.seqTick.txuTick_form
  obtain ⟨u, c'', q, h₃⟩ := s.seqTick.txuTick.rxuTick_form
  obtain ⟨e, q', h₄⟩ := s.seqTick.txuTick.rxuTick.hostTick_form
  obtain ⟨u', k, h₅⟩ := (s.seqTick.txuTick.rxuTick.hostTick).rxuEdge_form s.env.rxd
  have hr : s.seqTick.txuTick.rxuTick.hostTick.env.rst = false := by
    rw [State.hostTick_rst, h₃, h₂, h₁]
    exact h
  unfold State.tick
  dsimp only
  have hr' : (s.seqTick.txuTick.rxuTick.hostTick.rxuEdge s.env.rxd).env.rst = false := by
    rw [h₅]
    exact hr
  have hn : (s.seqTick.txuTick.rxuTick.hostTick.rxuEdge s.env.rxd).now = s.now := by
    rw [h₅, h₄, h₃, h₂, h₁]
  rw [hr', hn]
  simp

/-- A tick in which `rst` rises leaves the block at its reset values (R129, R130). -/
theorem State.tick_of_high (s : State) (h : s.env.nextRst = true) :
    ∃ e, s.tick = { State.reset with free := s.free, env := e } ∧ e.rst = true := by
  obtain ⟨p, w, c, h₁⟩ := s.seqTick_form
  obtain ⟨x, c', h₂⟩ := s.seqTick.txuTick_form
  obtain ⟨u, c'', q, h₃⟩ := s.seqTick.txuTick.rxuTick_form
  obtain ⟨e, q', h₄⟩ := s.seqTick.txuTick.rxuTick.hostTick_form
  obtain ⟨u', k, h₅⟩ := (s.seqTick.txuTick.rxuTick.hostTick).rxuEdge_form s.env.rxd
  have hr : s.seqTick.txuTick.rxuTick.hostTick.env.rst = true := by
    rw [State.hostTick_rst, h₃, h₂, h₁]
    exact h
  refine ⟨s.seqTick.txuTick.rxuTick.hostTick.env, ?_, hr⟩
  unfold State.tick
  dsimp only
  have he : (s.seqTick.txuTick.rxuTick.hostTick.rxuEdge s.env.rxd).env = s.seqTick.txuTick.rxuTick.hostTick.env := by
    rw [h₅]
  have hf : (s.seqTick.txuTick.rxuTick.hostTick.rxuEdge s.env.rxd).free = s.free := by
    rw [h₅, h₄, h₃, h₂, h₁]
  rw [he, hr, if_pos rfl, State.powerOn, he, hf]

/-- What a tick does to `rst` and to its levels to come (R130). -/
theorem State.tick_env (s : State) :
    s.tick.env.rst = s.env.nextRst ∧ s.tick.env.rstPlan = s.env.rstPlan.tail ∧
    s.tick.env.rstMore = s.env.nextRstMore := by
  obtain ⟨p, w, c, h₁⟩ := s.seqTick_form
  obtain ⟨x, c', h₂⟩ := s.seqTick.txuTick_form
  obtain ⟨u, c'', q, h₃⟩ := s.seqTick.txuTick.rxuTick_form
  obtain ⟨u', k, h₅⟩ := (s.seqTick.txuTick.rxuTick.hostTick).rxuEdge_form s.env.rxd
  have he : s.seqTick.txuTick.rxuTick.env = s.env := by rw [h₃, h₂, h₁]
  have ht : s.tick.env = s.seqTick.txuTick.rxuTick.hostTick.env := by
    unfold State.tick
    dsimp only
    split
    · rw [State.powerOn_env, h₅]
    · rw [h₅]
  rw [ht, State.hostTick_rst, State.hostTick_rstPlan, State.hostTick_rstMore, he]
  exact ⟨rfl, rfl, rfl⟩

/-- The receiver and HOST in a tick depend on their own side alone. -/
theorem State.lineSide_congr {s t : State} (h₁ : s.rxu = t.rxu) (h₂ : s.rxBitCtr = t.rxBitCtr) (h₃ : s.rxDone = t.rxDone)
    (h₄ : s.env = t.env) (v : Bool) :
    (s.rxuTick.hostTick.rxuEdge v).rxu = (t.rxuTick.hostTick.rxuEdge v).rxu ∧
    (s.rxuTick.hostTick.rxuEdge v).rxBitCtr = (t.rxuTick.hostTick.rxuEdge v).rxBitCtr ∧
    (s.rxuTick.hostTick.rxuEdge v).rxDone = (t.rxuTick.hostTick.rxuEdge v).rxDone ∧
    (s.rxuTick.hostTick.rxuEdge v).env = (t.rxuTick.hostTick.rxuEdge v).env := by
  have a : ∀ u w : State, u.rxu = w.rxu → u.rxBitCtr = w.rxBitCtr → u.rxDone = w.rxDone → u.env = w.env →
      u.rxuTick.rxu = w.rxuTick.rxu ∧ u.rxuTick.rxBitCtr = w.rxuTick.rxBitCtr ∧ u.rxuTick.rxDone = w.rxuTick.rxDone ∧
        u.rxuTick.env = w.rxuTick.env := by
    intro u w k₁ k₂ k₃ k₄
    unfold State.rxuTick
    rw [← k₁, ← k₂, ← k₄, ← k₃]
    repeat' split
    all_goals exact ⟨by first | rfl | exact k₁, by first | rfl | exact k₂, by first | rfl | exact k₃, by first | rfl | exact k₄⟩
  have b : ∀ u w : State, u.rxu = w.rxu → u.rxBitCtr = w.rxBitCtr → u.rxDone = w.rxDone → u.env = w.env →
      u.hostTick.rxu = w.hostTick.rxu ∧ u.hostTick.rxBitCtr = w.hostTick.rxBitCtr ∧
        u.hostTick.rxDone = w.hostTick.rxDone ∧ u.hostTick.env = w.hostTick.env := by
    intro u w k₁ k₂ k₃ k₄
    unfold State.hostTick
    rw [← k₄, ← k₃]
    dsimp only
    split <;> exact ⟨k₁, k₂, rfl, rfl⟩
  have c : ∀ u w : State, u.rxu = w.rxu → u.rxBitCtr = w.rxBitCtr → u.rxDone = w.rxDone → u.env = w.env →
      (u.rxuEdge v).rxu = (w.rxuEdge v).rxu ∧ (u.rxuEdge v).rxBitCtr = (w.rxuEdge v).rxBitCtr ∧
        (u.rxuEdge v).rxDone = (w.rxuEdge v).rxDone ∧ (u.rxuEdge v).env = (w.rxuEdge v).env := by
    intro u w k₁ k₂ k₃ k₄
    unfold State.rxuEdge
    rw [← k₁, ← k₄]
    repeat' split
    all_goals exact ⟨by first | rfl | exact k₁, by first | rfl | exact k₂, k₃, by first | rfl | exact k₄⟩
  obtain ⟨a₁, a₂, a₃, a₄⟩ := a s t h₁ h₂ h₃ h₄
  obtain ⟨b₁, b₂, b₃, b₄⟩ := b _ _ a₁ a₂ a₃ a₄
  exact c _ _ b₁ b₂ b₃ b₄

/-- TXU's tick depends on TXH and its counter alone. -/
theorem State.txuTick_congr {s t : State} (h₁ : s.txh = t.txh) (h₂ : s.txBitCtr = t.txBitCtr) :
    s.txuTick.txh = t.txuTick.txh ∧ s.txuTick.txBitCtr = t.txuTick.txBitCtr := by
  unfold State.txuTick
  rw [h₁, h₂]
  split
  · exact ⟨h₁, h₂⟩
  · split
    · exact ⟨rfl, rfl⟩
    · split <;> exact ⟨rfl, rfl⟩

/-- What a tick in which `rst` does not rise does to each field on SEQ's and TXU's side. -/
theorem State.tick_fields (s : State) (h : s.env.nextRst = false) :
    s.tick.latch = s.latch ∧ s.tick.ls = s.ls ∧ s.tick.ph = s.seqTick.ph ∧ s.tick.fb = s.fb ∧ s.tick.rxh = s.rxh ∧
    s.tick.txh = s.txuTick.txh ∧ s.tick.txBitCtr = s.txuTick.txBitCtr ∧ s.tick.pwmOut = s.pwmOut ∧
    s.tick.waitCtr = s.seqTick.waitCtr ∧ s.tick.pulseCtr = s.seqTick.pulseCtr ∧ s.tick.trace = s.trace ∧
    s.tick.now = s.now + 1 ∧ s.tick.free = s.free ∧ s.tick.env.rst = false := by
  rw [s.tick_of_low h]
  obtain ⟨p, w, c, h₁⟩ := s.seqTick_form
  obtain ⟨x, c', h₂⟩ := s.seqTick.txuTick_form
  obtain ⟨u, c'', q, h₃⟩ := s.seqTick.txuTick.rxuTick_form
  obtain ⟨e, q', h₄⟩ := s.seqTick.txuTick.rxuTick.hostTick_form
  obtain ⟨u', k, h₅⟩ := (s.seqTick.txuTick.rxuTick.hostTick).rxuEdge_form s.env.rxd
  have hx := State.txuTick_congr (s := s.seqTick) (t := s) (by rw [h₁]) (by rw [h₁])
  have hr : s.seqTick.txuTick.rxuTick.hostTick.env.rst = false := by
    rw [State.hostTick_rst, h₃, h₂, h₁]
    exact h
  rw [h₂] at hx
  rw [h₅]
  simp only [hr, and_true]
  rw [h₄, h₃, h₂, ← hx.1, ← hx.2, h₁]
  simp only [and_self]

/-- An action of SEQ leaves HOST, the receiver and the model's clock as they are. -/
theorem State.seqStep_keeps {s t : State} (h : s.seqStep = .next t) :
    t.env = s.env ∧ t.now = s.now ∧ t.rxu = s.rxu ∧ t.rxBitCtr = s.rxBitCtr ∧ t.rxDone = s.rxDone := by
  unfold State.seqStep State.dispatchByte at h
  simp only [exec_eq_commit] at h
  split at h <;> injection h with h <;> subst h <;> try exact ⟨rfl, rfl, rfl, rfl, rfl⟩
  · unfold State.pollRead State.rxTake
    split
    · exact ⟨rfl, rfl, rfl, rfl, rfl⟩
    all_goals
      rename_i heq
      split at heq <;> cases heq
      exact ⟨rfl, rfl, rfl, rfl, rfl⟩
  · unfold State.emitFeedback
    split <;> exact ⟨rfl, rfl, rfl, rfl, rfl⟩
  · unfold State.pwmPulse
    split <;> exact ⟨rfl, rfl, rfl, rfl, rfl⟩

/-- SEQ always answers a next state. -/
theorem State.seqStep_next (s : State) : ∃ t, s.seqStep = .next t := by
  unfold State.seqStep State.dispatchByte
  simp only [exec_eq_commit]
  split <;> exact ⟨_, rfl⟩

/-- When each of the four can move (R46, R124). -/
theorem State.turn_spec (s : State) :
    (s.turn = .reset ∧ s.env.rst = true) ∨
    (s.turn = .seq ∧ s.env.rst = false ∧ s.seqReady = true) ∨
    (s.turn = .rxu ∧ s.env.rst = false ∧ s.rxDone ≠ [] ∧ (s.seqReady = true ∨ s.midCycle = false)) ∨
    (s.turn = .clock ∧ s.env.rst = false ∧ s.seqReady = false ∧ (s.rxDone = [] ∨ s.midCycle = true)) := by
  unfold State.turn
  cases s.env.rst <;> cases s.seqReady <;> cases s.rxDone <;> cases s.midCycle <;> simp
  all_goals cases s.ph.usesRxh <;> cases Config.rxuFirst s.free <;> simp

/-- The four cases of a step, each with whose turn it is: a tick under reset, an action of SEQ, a store by RXU, a tick. -/
theorem step_turns {s t : State} (h : step s = .next t) :
    (s.turn = .reset ∧ s.env.rst = true ∧ t = s.resetTick) ∨
    (s.turn = .seq ∧ s.env.rst = false ∧ s.seqReady = true ∧ s.seqStep = .next t) ∨
    (s.turn = .rxu ∧ s.env.rst = false ∧ s.rxDone ≠ [] ∧ t = s.rxuStore) ∨
    (s.turn = .clock ∧ s.env.rst = false ∧ s.seqReady = false ∧ t = s.tick) := by
  unfold step at h
  obtain ⟨ht, hr⟩ | ⟨ht, hr⟩ | ⟨ht, hr⟩ | ⟨ht, hr⟩ := s.turn_spec <;> simp only [ht] at h
  · exact .inl ⟨ht, hr, (Host.Outcome.next.inj h).symm⟩
  · exact .inr (.inl ⟨ht, hr.1, hr.2, h⟩)
  · exact .inr (.inr (.inl ⟨ht, hr.1, hr.2.1, (Host.Outcome.next.inj h).symm⟩))
  · exact .inr (.inr (.inr ⟨ht, hr.1, hr.2.1, (Host.Outcome.next.inj h).symm⟩))

/-- The four cases of a step, by what the state allows. -/
theorem step_cases {s t : State} (h : step s = .next t) :
    (s.env.rst = true ∧ t = s.resetTick) ∨
    (s.env.rst = false ∧ s.seqReady = true ∧ s.seqStep = .next t) ∨
    (s.env.rst = false ∧ s.rxDone ≠ [] ∧ t = s.rxuStore) ∨
    (s.env.rst = false ∧ s.seqReady = false ∧ t = s.tick) := by
  obtain h | h | h | h := step_turns h
  · exact .inl h.2
  · exact .inr (.inl h.2)
  · exact .inr (.inr (.inl h.2))
  · exact .inr (.inr (.inr h.2))

/-- In WAIT, SEQ acts when the refresh-wait counter has run (R105). -/
theorem State.seqReady_wait {s : State} (hl : s.ls = .running) (hp : s.ph = .wait) :
    s.seqReady = true ↔ Config.T_WAIT_TICKS ≤ s.waitCtr := by
  simp [State.seqReady, hl, hp]

/-- In a high phase, SEQ acts when the pulse counter has run (R97). -/
theorem State.seqReady_high {s : State} {d : Word} (hl : s.ls = .running) (hp : s.ph = .pulse (.high d)) :
    s.seqReady = true ↔ d.toNat * Config.US_TICKS ≤ s.pulseCtr := by
  simp [State.seqReady, hl, hp]

/-- SEQ reads only when an item is there (R62, R107). -/
theorem State.seqReady_read {s : State} {own : Nat} (hp : s.ph = .poll (.read own)) (h : s.seqReady = true) :
    ∃ item, s.rxh = some item := by
  simp only [State.seqReady, hp, State.rxAvail, Bool.and_eq_true] at h
  exact Option.isSome_iff_exists.mp h.2

/-- In HALTED, SEQ never acts (R111). -/
theorem State.seqReady_halted {s : State} (hl : s.ls = .halted) : s.seqReady = false := by
  simp [State.seqReady, hl]

/-- In DISPATCH with its own time passed and `rst` low, it is SEQ's turn. -/
theorem State.turn_dispatch {s : State} {b : Byte} (hr : s.env.rst = false) (hl : s.ls = .running)
    (hp : s.ph = .dispatch b 0) : s.turn = .seq := by
  simp [State.turn, State.seqReady, Phase.usesRxh, hr, hl, hp]

end Sys2Proof.Machine
end

