-- ==== Sys2Proof/Laws/Line.lean ====
section
/-! SUPPORT. The receiver and HOST on the line, one bit-time at a time (spec/40_serial_transport.md R65, R68): what
`State.lineTick` does while a frame bit is on the line and when it ends. -/

namespace Sys2Proof.Machine

/-- HOST and RXU are `k` ticks into frame bit `i`, whose level is `v`; `rest` is to come, `d` was sampled before. -/
structure State.InFrame (s : State) (d : Byte) (i : Fin 10) (k : Nat) (v : Bool) (rest : List LineSeg) : Prop where
  rxu : s.rxu = .frame d i
  rxBitCtr : s.rxBitCtr = k
  lineCtr : s.env.lineCtr = k
  line : s.env.line = .bit v :: rest
  rxd : s.env.rxd = v

/-- The tick in which what is on the line ends: HOST begins what it offers next, and RXU, if it is idle and the line falls,
begins a frame (R65, R68). -/
theorem State.lineTick_begins {s : State} (h : s.LineEnds) :
    s.lineTick.env.line = (nextLine [] s.env.items s.env.more).1 ∧
    s.lineTick.env.items = (nextLine [] s.env.items s.env.more).2.1 ∧
    s.lineTick.env.more = (nextLine [] s.env.items s.env.more).2.2 ∧
    s.lineTick.env.rxd = lineLevel (nextLine [] s.env.items s.env.more).1 ∧ s.lineTick.env.lineCtr = 0 ∧
    s.lineTick.rxh = s.rxh ∧
    if s.rxuTick.rxu = .idle ∧ s.env.rxd = true ∧ lineLevel (nextLine [] s.env.items s.env.more).1 = false then
      s.lineTick.rxu = .frame 0 0 ∧ s.lineTick.rxBitCtr = 0
    else s.lineTick.rxu = s.rxuTick.rxu := by
  obtain ⟨u, c, q, e⟩ := s.rxuTick_form
  obtain ⟨h₁, h₂⟩ := h
  unfold State.lineTick
  rw [e]
  unfold State.hostTick
  simp only [h₁, if_true, h₂]
  unfold State.rxuEdge
  cases u <;> cases s.env.rxd <;> cases lineLevel (nextLine [] s.env.items s.env.more).1 <;> simp

/-- The tick that begins a frame. -/
theorem State.inFrame_start {s : State} {b : Byte} {stop : Bool} (h₁ : s.LineEnds) (h₂ : s.env.rxd = true)
    (h₃ : s.rxuTick.rxu = .idle) (h₄ : s.Offers (.frame b stop)) :
    s.lineTick.InFrame 0 0 0 false (frameSegs b stop).tail ∧ s.lineTick.rxh = s.rxh := by
  obtain ⟨k₁, -, -, k₂, k₃, k₄, k₅⟩ := State.lineTick_begins h₁
  unfold State.Offers at h₄
  rw [h₄] at k₁ k₂ k₅
  rw [if_pos ⟨h₃, h₂, rfl⟩] at k₅
  exact ⟨⟨k₅.1, k₅.2, k₃, k₁, k₂⟩, k₄⟩

/-- A tick inside a bit-time. -/
theorem State.inFrame_stay {s : State} {d : Byte} {i : Fin 10} {k : Nat} {v : Bool} {rest : List LineSeg}
    (h : s.InFrame d i k v rest) (hk : k + 1 < Config.BIT_TICKS) :
    s.lineTick.InFrame d i (k + 1) v rest ∧ s.lineTick.rxDone = s.rxDone ∧ s.lineTick.rxh = s.rxh := by
  have hk' : ¬ Config.BIT_TICKS ≤ k + 1 := by omega
  unfold State.lineTick State.rxuTick State.hostTick
  simp only [h.rxu, h.rxBitCtr, hk, if_true, h.lineCtr, h.line, segEnds, hk', decide_false, Bool.false_eq_true,
    if_false, State.rxuEdge]
  exact ⟨⟨rfl, rfl, rfl, rfl, h.rxd⟩, trivial, trivial⟩

/-- The tick that ends a bit-time before the stop bit: the bit is sampled and the next one goes on the line. -/
theorem State.inFrame_next {s : State} {d : Byte} {i : Fin 10} {v w : Bool} {rest : List LineSeg} (hi : i.val < 9)
    (h : s.InFrame d i (Config.BIT_TICKS - 1) v (.bit w :: rest)) :
    s.lineTick.InFrame (if i.val = 0 then d else sampleBit d i v) ⟨i.val + 1, by omega⟩ 0 w rest ∧
      s.lineTick.rxDone = s.rxDone ∧ s.lineTick.rxh = s.rxh := by
  have hpos := Config.bit_ticks_pos
  have hk : ¬ Config.BIT_TICKS - 1 + 1 < Config.BIT_TICKS := by omega
  have hk' : Config.BIT_TICKS ≤ Config.BIT_TICKS - 1 + 1 := by omega
  unfold State.lineTick State.rxuTick State.hostTick
  simp only [h.rxu, h.rxBitCtr, hk, if_false, hi, dif_pos, h.lineCtr, h.line, segEnds, hk', decide_true, if_true,
    nextLine, List.tail_cons, segDelivers, State.rxuEdge, h.rxd]
  exact ⟨⟨rfl, rfl, rfl, rfl, rfl⟩, List.append_nil _, trivial⟩

/-- The tick that ends the stop bit: the item is completed (R58, R65). -/
theorem State.inFrame_end {s : State} {d : Byte} {v : Bool} {rest : List LineSeg}
    (h : s.InFrame d 9 (Config.BIT_TICKS - 1) v rest) :
    s.lineTick.rxDone = s.rxDone ++ [frameItem d v] ∧ s.lineTick.rxh = s.rxh := by
  have hpos := Config.bit_ticks_pos
  have hk : ¬ Config.BIT_TICKS - 1 + 1 < Config.BIT_TICKS := by omega
  have h₉ : ¬ (9 : Fin 10).val < 9 := by decide
  have h₁ : s.rxuTick = { s with
      rxBitCtr := 0, rxDone := s.rxDone ++ [frameItem d v], rxu := if v then .idle else .heldLow } := by
    unfold State.rxuTick
    simp only [h.rxu, h.rxBitCtr, hk, if_false, h₉, dif_neg, not_false_eq_true, h.rxd]
  have h₂ : s.rxuTick.hostTick.rxDone = s.rxuTick.rxDone ∧ s.rxuTick.hostTick.rxh = s.rxuTick.rxh := by
    unfold State.hostTick
    dsimp only
    split
    · rw [h₁]
      simp only [h.line, segDelivers, List.append_nil, and_self]
    · exact ⟨rfl, rfl⟩
  obtain ⟨u, c, h₃⟩ := s.rxuTick.hostTick.rxuEdge_form s.env.rxd
  unfold State.lineTick
  rw [h₃]
  exact ⟨h₂.1.trans (by rw [h₁]), h₂.2.trans (by rw [h₁])⟩

/-- The ten samples of a frame put its byte together again (R57, R65). -/
theorem sampleBit_frame (b : Byte) :
    sampleBit (sampleBit (sampleBit (sampleBit (sampleBit (sampleBit (sampleBit (sampleBit 0
      1 (b.getLsbD 0)) 2 (b.getLsbD 1)) 3 (b.getLsbD 2)) 4 (b.getLsbD 3)) 5 (b.getLsbD 4)) 6 (b.getLsbD 5))
      7 (b.getLsbD 6)) 8 (b.getLsbD 7) = b := by
  revert b
  decide

/-- A tick with HOST quiet leaves it quiet. -/
theorem State.tick_quiet {s : State} (h : s.HostQuiet) : s.tick.HostQuiet := by
  obtain ⟨h₀, h₁, h₂, h₃, h₄, h₅, h₆, h₇, h₈⟩ := h
  have hp : s.env.nextRst = false := by unfold Env.nextRst; rw [h₁, h₂]
  rw [s.tick_of_low hp]
  obtain ⟨p, w, c, e₁⟩ := s.seqTick_form
  obtain ⟨x, c', e₂⟩ := s.seqTick.txuTick_form
  have ev : s.seqTick.txuTick.env = s.env := by rw [e₂, e₁]
  have ru : s.seqTick.txuTick.rxu = .idle := by rw [e₂, e₁]; exact h₇
  have rd : s.seqTick.txuTick.rxDone = [] := by rw [e₂, e₁]; exact h₈
  generalize s.seqTick.txuTick = u at *
  have e₃ : u.rxuTick = u := by unfold State.rxuTick; rw [ru]
  rw [e₃]
  have e₄ : u.hostTick = { u with env := .quiet } := by
    unfold State.hostTick
    simp only [ev, h₁, h₂, h₄, h₅, h₆, hp, Env.nextRstMore, Option.map_none, segEnds, segDelivers, if_true, List.tail_nil,
      nextLine, lineLevel, List.append_nil]
    rfl
  rw [e₄]
  unfold State.rxuEdge
  simp only [ru, Env.quiet, Env.start, Bool.not_true, Bool.and_false, Bool.false_eq_true, if_false]
  exact ⟨rfl, rfl, rfl, rfl, rfl, rfl, rfl, rfl, rd⟩

/-- With HOST quiet only SEQ and the clock move. -/
theorem State.turn_quiet {s : State} (h : s.HostQuiet) : s.turn = if s.seqReady then .seq else .clock := by
  obtain ⟨h₀, -, -, -, -, -, -, -, h₈⟩ := h
  unfold State.turn
  simp [h₀, h₈]

end Sys2Proof.Machine
end

