-- ==== Sys2Proof/Laws/Run.lean ====
section
/-! SUPPORT. Runs of several steps put together. -/

namespace Sys2Proof.Machine

/-- `t` is reached from `s` in some number of steps. -/
def State.Reaches (s t : State) : Prop := ∃ k, Sys2Proof.core.run k s = .next t

theorem State.reaches_refl (s : State) : s.Reaches s := ⟨0, rfl⟩

theorem State.reaches_step {s t : State} (h : step s = .next t) : s.Reaches t := by
  have : Sys2Proof.core.step s = .next t := h
  exact ⟨1, by simp only [Host.Core.run, this]⟩

theorem State.reaches_trans {s t u : State} (h : s.Reaches t) (h' : t.Reaches u) : s.Reaches u := by
  obtain ⟨k, hk⟩ := h
  obtain ⟨m, hm⟩ := h'
  refine ⟨k + m, ?_⟩
  induction k generalizing s with
  | zero =>
    simp only [Host.Core.run] at hk
    injection hk with hk
    subst hk
    simpa using hm
  | succ k ih =>
    rw [Nat.add_right_comm]
    simp only [Host.Core.run] at hk ⊢
    cases h : Sys2Proof.core.step s with
    | next a => rw [h] at hk; exact ih hk
    | fault a => rw [h] at hk; cases hk
    | refused a => rw [h] at hk; cases hk

end Sys2Proof.Machine
end

