-- ==== Sys2Proof/Laws/Iteration.lean ====
section
/-! SUPPORT. Runs with HOST quiet: what a tick and an action of SEQ do to the fields a run is followed by, and how long
each place of the loop lasts (spec/43_control_loop.md R104, R113). -/

namespace Sys2Proof.Machine

/-- TXU's tick brings the end of a transmission one tick nearer and keeps its counter in bounds (R64). -/
theorem State.txuTick_remaining (s : State) (h : s.txBitCtr < Config.BIT_TICKS) :
    s.txuTick.txRemaining = s.txRemaining - 1 ∧ s.txuTick.txBitCtr < Config.BIT_TICKS := by
  have hpos := Config.bit_ticks_pos
  unfold State.txRemaining State.txuTick
  rcases hx : s.txh with _ | ⟨b, i⟩
  · simp [hx, h]
  · have hi := i.isLt
    by_cases h₁ : s.txBitCtr + 1 < Config.BIT_TICKS
    · simp [h₁]
      omega
    · by_cases h₂ : i.val < 9
      · simp only [h₁, h₂, if_false, dif_pos, Config.FRAME_BITS, Config.DATA_BITS, Config.STOP_BITS]
        refine ⟨?_, hpos⟩
        have e : 1 + 8 + 1 - i.val = (1 + 8 + 1 - (i.val + 1)) + 1 := by omega
        rw [e, Nat.add_mul]
        omega
      · have h₉ : i.val = 9 := by omega
        simp only [h₁, h₂, if_false, dif_neg, not_false_eq_true, Config.FRAME_BITS, Config.DATA_BITS, Config.STOP_BITS]
        exact ⟨by rw [h₉]; omega, hpos⟩

/-- With TXU's counter in bounds, nothing remains exactly when TXH is empty (R63). -/
theorem State.txRemaining_zero {s : State} (h : s.txBitCtr < Config.BIT_TICKS) : s.txRemaining = 0 ↔ s.txh = none := by
  unfold State.txRemaining
  rcases hx : s.txh with _ | ⟨b, i⟩
  · simp
  · have hi := i.isLt
    have : 1 * Config.BIT_TICKS ≤ (Config.FRAME_BITS - i.val) * Config.BIT_TICKS :=
      Nat.mul_le_mul_right _ (by simp only [Config.FRAME_BITS, Config.DATA_BITS, Config.STOP_BITS]; omega)
    simp
    omega

/-- The fields a run with HOST quiet is followed by. -/
structure State.Stands (s : State) (l : Latch) (fb : Option FeedbackEvent) (x : Option RxItem) (tr : List Event)
    (now rem : Nat) (ph : Phase) (wait pulse : Nat) (pwm : Bool) : Prop where
  quiet : s.HostQuiet
  running : s.ls = .running
  latch : s.latch = l
  fb : s.fb = fb
  rxh : s.rxh = x
  trace : s.trace = tr
  now : s.now = now
  rem : s.txRemaining = rem
  txBitCtr : s.txBitCtr < Config.BIT_TICKS
  ph : s.ph = ph
  waitCtr : s.waitCtr = wait
  pulseCtr : s.pulseCtr = pulse
  pwmOut : s.pwmOut = pwm

variable {s t : State} {l l' : Latch} {fb fb' : Option FeedbackEvent} {x x' : Option RxItem} {tr tr' : List Event}
  {now rem rem' w w' p p' : Nat} {ph ph' : Phase} {pwm pwm' : Bool}

/-- Where SEQ cannot act, a tick passes. -/
theorem State.Stands.tick (h : s.Stands l fb x tr now rem ph w p pwm) (hr : s.seqReady = false) :
    s.Reaches s.tick ∧
      s.tick.Stands l fb x tr (now + 1) (rem - 1) s.seqTick.ph s.seqTick.waitCtr s.seqTick.pulseCtr pwm := by
  have ht : s.turn = .clock := by rw [State.turn_quiet h.quiet, hr]; rfl
  have hs : step s = .next s.tick := by unfold step; rw [ht]
  have hp : s.env.nextRst = false := by unfold Env.nextRst; rw [h.quiet.2.1, h.quiet.2.2.1]
  obtain ⟨f₁, f₂, f₃, f₄, f₅, f₆, f₇, f₈, f₉, f₁₀, f₁₁, f₁₂, -, -⟩ := s.tick_fields hp
  obtain ⟨g₁, g₂⟩ := s.txuTick_remaining h.txBitCtr
  have hm : s.tick.txRemaining = s.txuTick.txRemaining := by unfold State.txRemaining; rw [f₆, f₇]
  exact ⟨State.reaches_step hs, State.tick_quiet h.quiet, f₂.trans h.running, f₁.trans h.latch, f₄.trans h.fb,
    f₅.trans h.rxh, f₁₁.trans h.trace, by rw [f₁₂, h.now], by rw [hm, g₁, h.rem], by rw [f₇]; exact g₂, f₃, f₉, f₁₀,
    f₈.trans h.pwmOut⟩

/-- Where SEQ can act, it does, in no time. -/
theorem State.Stands.act (h : s.Stands l fb x tr now rem ph w p pwm) (hr : s.seqReady = true) (hq : s.seqStep = .next t)
    (h₁ : t.ls = .running) (h₂ : t.latch = l') (h₃ : t.fb = fb') (h₄ : t.rxh = x') (h₅ : t.trace = tr')
    (h₆ : t.txRemaining = rem') (h₇ : t.txBitCtr < Config.BIT_TICKS) (h₈ : t.ph = ph') (h₉ : t.waitCtr = w')
    (h₁₀ : t.pulseCtr = p') (h₁₁ : t.pwmOut = pwm') :
    s.Reaches t ∧ t.Stands l' fb' x' tr' now rem' ph' w' p' pwm' := by
  have ht : s.turn = .seq := by rw [State.turn_quiet h.quiet, hr]; rfl
  have hs : step s = .next t := by unfold step; rw [ht]; exact hq
  obtain ⟨k₁, k₂, k₃, -, k₅⟩ := State.seqStep_keeps hq
  have hk : t.HostQuiet := by
    have := h.quiet
    unfold State.HostQuiet at *
    rw [k₁, k₃, k₅]
    exact this
  exact ⟨State.reaches_step hs, hk, h₁, h₂, h₃, h₄, h₅, k₂.trans h.now, h₆, h₇, h₈, h₉, h₁₀, h₁₁⟩

/-- `n` ticks of the refresh wait (R105). -/
theorem State.Stands.waits (n : Nat) (h : s.Stands l fb x tr now rem .wait w p pwm) (hn : w + n ≤ Config.T_WAIT_TICKS) :
    ∃ t : State, s.Reaches t ∧ t.Stands l fb x tr (now + n) (rem - n) .wait (w + n) p pwm := by
  induction n with
  | zero => exact ⟨s, s.reaches_refl, h⟩
  | succ n ih =>
    obtain ⟨t, ht, hq⟩ := ih (by omega)
    have hr : t.seqReady = false := by
      have := (State.seqReady_wait hq.running hq.ph).not.mpr (by rw [hq.waitCtr]; omega)
      simpa using this
    obtain ⟨a, b⟩ := hq.tick hr
    have e : t.seqTick = { t with waitCtr := t.waitCtr + 1 } := by unfold State.seqTick; rw [hq.running, hq.ph]
    rw [e, Nat.sub_sub] at b
    simp only [hq.ph, hq.waitCtr, hq.pulseCtr] at b
    exact ⟨_, State.reaches_trans ht a, b⟩

/-- `n` ticks of a high phase (R97). -/
theorem State.Stands.drives {d : Word} (n : Nat) (h : s.Stands l fb x tr now rem (.pulse (.high d)) w p pwm)
    (hn : p + n ≤ d.toNat * Config.US_TICKS) :
    ∃ t : State, s.Reaches t ∧ t.Stands l fb x tr (now + n) (rem - n) (.pulse (.high d)) w (p + n) pwm := by
  induction n with
  | zero => exact ⟨s, s.reaches_refl, h⟩
  | succ n ih =>
    obtain ⟨t, ht, hq⟩ := ih (by omega)
    have hr : t.seqReady = false := by
      have := (State.seqReady_high hq.running hq.ph).not.mpr (by rw [hq.pulseCtr]; omega)
      simpa using this
    obtain ⟨a, b⟩ := hq.tick hr
    have e : t.seqTick = { t with pulseCtr := t.pulseCtr + 1 } := by unfold State.seqTick; rw [hq.running, hq.ph]
    rw [e, Nat.sub_sub] at b
    simp only [hq.ph, hq.waitCtr, hq.pulseCtr] at b
    exact ⟨_, State.reaches_trans ht a, b⟩

/-- The places where the sequencer's own time passes, with that time (R145). -/
def ownPlaces (b : Byte) (kind : FaultKind) : List (Nat → Phase) :=
  [fun n => .poll (.nothing n), fun n => .dispatch b n, fun n => .poll (.faulted kind n)]

/-- The sequencer's own time passes, whole, in each place (R145). -/
theorem State.Stands.spends {b : Byte} {kind : FaultKind} {place : Nat → Phase} (hp : place ∈ ownPlaces b kind) (n : Nat)
    (h : s.Stands l fb x tr now rem (place n) w p pwm) :
    ∃ t : State, s.Reaches t ∧ t.Stands l fb x tr (now + n) (rem - n) (place 0) w p pwm := by
  induction n generalizing s now rem with
  | zero => exact ⟨s, s.reaches_refl, h⟩
  | succ n ih =>
    have hk : s.seqReady = false ∧ s.seqTick = { s with ph := place n } := by
      have hph := h.ph
      simp only [ownPlaces, List.mem_cons, List.not_mem_nil, or_false] at hp
      rcases hp with rfl | rfl | rfl <;>
        exact ⟨by simp [State.seqReady, hph], by unfold State.seqTick; rw [h.running, hph]; rfl⟩
    obtain ⟨a, b'⟩ := h.tick hk.1
    rw [hk.2] at b'
    simp only [h.waitCtr, h.pulseCtr] at b'
    obtain ⟨t, ht, hq⟩ := ih b'
    rw [Nat.sub_sub, Nat.add_assoc, Nat.add_comm 1 n] at hq
    exact ⟨t, State.reaches_trans a ht, hq⟩

/-- The startup hold passes, whole (R133). -/
theorem State.Stands.holds {k : Nat} (n : Nat) (h : s.Stands l fb x tr now rem (.startup (.holding k)) w p pwm)
    (hn : k + n = Config.T_STARTUP_TICKS) :
    ∃ (t : State) (r : Nat), s.Reaches t ∧
      t.Stands l fb x tr (now + n) r (.startup (.holding Config.T_STARTUP_TICKS)) w p pwm := by
  induction n generalizing s now rem k with
  | zero =>
    rw [Nat.add_zero] at hn
    subst hn
    exact ⟨s, rem, s.reaches_refl, h⟩
  | succ n ih =>
    have hr : s.seqReady = false := by
      simp [State.seqReady, h.ph]
      omega
    obtain ⟨a, b⟩ := h.tick hr
    have e : s.seqTick = { s with ph := .startup (.holding (k + 1)) } := by unfold State.seqTick; rw [h.running, h.ph]
    rw [e] at b
    simp only [h.waitCtr, h.pulseCtr] at b
    obtain ⟨t, r, ht, hq⟩ := ih b (by omega)
    rw [Nat.add_assoc, Nat.add_comm 1 n] at hq
    exact ⟨t, r, State.reaches_trans a ht, hq⟩

/-- The places where SEQ sends the rest of a message. -/
def sendPlaces : List (List Byte → Phase) :=
  [fun bs => .startup (.sending bs), fun bs => .feedback (.sending bs), fun bs => .poll (.faultSending bs)]

/-- A full TXH holds SEQ until the transmission is over (R63). -/
theorem State.Stands.held {place : List Byte → Phase} (hp : place ∈ sendPlaces) {b : Byte} {bs : List Byte} (n : Nat)
    (h : s.Stands l fb x tr now n (place (b :: bs)) w p pwm) :
    ∃ t : State, s.Reaches t ∧ t.Stands l fb x tr (now + n) 0 (place (b :: bs)) w p pwm := by
  induction n generalizing s now with
  | zero => exact ⟨s, s.reaches_refl, h⟩
  | succ n ih =>
    have hx : s.txh.isNone = false := by
      cases hh : s.txh with
      | none =>
        have h₀ := (State.txRemaining_zero h.txBitCtr).mpr hh
        rw [h.rem] at h₀
        omega
      | some y => rfl
    have hk : s.seqReady = false ∧ s.seqTick = s := by
      have hph := h.ph
      simp only [sendPlaces, List.mem_cons, List.not_mem_nil, or_false] at hp
      rcases hp with rfl | rfl | rfl <;>
        exact ⟨by simp [State.seqReady, hph, State.txEmpty, hx], by unfold State.seqTick; rw [h.running, hph]⟩
    obtain ⟨a, b'⟩ := h.tick hk.1
    rw [hk.2, h.ph, h.waitCtr, h.pulseCtr] at b'
    obtain ⟨t, ht, hq⟩ := ih b'
    rw [Nat.add_assoc, Nat.add_comm 1 n] at hq
    exact ⟨t, State.reaches_trans a ht, hq⟩

/-- A whole message: the rest of the transmission under way, then ten bit-times for each byte but the last (R113). -/
theorem State.Stands.sends {place : List Byte → Phase} (hp : place ∈ sendPlaces) (bs : List Byte)
    (h : s.Stands l fb x tr now rem (place bs) w p pwm) :
    ∃ (t : State) (r : Nat), s.Reaches t ∧
      t.Stands l fb x (tr ++ bs.map .txByte)
        (now + if bs = [] then 0 else rem + (bs.length - 1) * (10 * Config.BIT_TICKS)) r (place []) w p pwm := by
  induction bs generalizing s rem now tr with
  | nil => exact ⟨s, rem, s.reaches_refl, by simpa using h⟩
  | cons b bs ih =>
    obtain ⟨t, ht, hq⟩ := h.held hp
    have hx : t.txh = none := (State.txRemaining_zero hq.txBitCtr).mp hq.rem
    have hk : t.seqReady = true ∧ t.seqStep = .next { t.txSend b with ph := place bs } := by
      have hph := hq.ph
      simp only [sendPlaces, List.mem_cons, List.not_mem_nil, or_false] at hp
      rcases hp with rfl | rfl | rfl <;>
        exact ⟨by simp [State.seqReady, hph, State.txEmpty, hx, hq.running], by unfold State.seqStep; rw [hph]⟩
    have hm : (10 - 0) * Config.BIT_TICKS - 0 = 10 * Config.BIT_TICKS := by omega
    obtain ⟨a, b'⟩ := hq.act (tr' := tr ++ [.txByte b]) (rem' := 10 * Config.BIT_TICKS) hk.1 hk.2 hq.running hq.latch hq.fb
      hq.rxh (by rw [← hq.trace]; rfl) hm Config.bit_ticks_pos rfl hq.waitCtr hq.pulseCtr hq.pwmOut
    obtain ⟨u, r, hu, hv⟩ := ih b'
    refine ⟨u, r, State.reaches_trans ht (State.reaches_trans a hu), ?_⟩
    have e : now + rem + (if bs = [] then 0 else 10 * Config.BIT_TICKS + (bs.length - 1) * (10 * Config.BIT_TICKS)) =
        now + if b :: bs = [] then 0 else rem + ((b :: bs).length - 1) * (10 * Config.BIT_TICKS) := by
      cases bs with
      | nil => simp
      | cons c cs =>
        simp
        ring
    rw [e, List.append_assoc] at hv
    exact hv

/-- A whole pulse slot, from its entry to the next refresh wait (R97, R101). -/
theorem State.Stands.pulses (h : s.Stands l fb x tr now rem (.pulse .enter) w p pwm) :
    ∃ (t : State) (r p' : Nat) (v : Bool), s.Reaches t ∧
      t.Stands l fb x (tr ++ [.pulse l.dly]) (now + l.dly.toNat * Config.US_TICKS) r .wait 0 p' v := by
  have hd : s.dly = l.dly := by unfold State.dly; rw [h.latch]
  have hr : s.seqReady = true := by simp [State.seqReady, h.running, h.ph]
  have hq : s.seqStep = .next (s.pwmPulse l.dly) := by unfold State.seqStep; rw [h.ph, hd]
  by_cases h₀ : 0 < l.dly
  · rw [s.pwmPulse_pos h₀] at hq
    obtain ⟨a, b⟩ := h.act (tr' := tr ++ [.pulse l.dly]) (p' := 0) hr hq h.running h.latch h.fb h.rxh (by rw [← h.trace])
      h.rem h.txBitCtr rfl h.waitCtr rfl rfl
    obtain ⟨u, hu, b⟩ := b.drives (l.dly.toNat * Config.US_TICKS) (by simp)
    have hr : u.seqReady = true := (State.seqReady_high b.running b.ph).mpr (by rw [b.pulseCtr]; omega)
    have hq : u.seqStep = .next u.pwmEnd := by unfold State.seqStep; rw [b.ph]
    obtain ⟨a', b'⟩ := b.act hr hq b.running b.latch b.fb b.rxh b.trace b.rem b.txBitCtr rfl rfl rfl rfl
    exact ⟨_, _, _, _, State.reaches_trans a (State.reaches_trans hu a'), b'⟩
  · have hz : l.dly = 0 := by
      rw [BitVec.lt_def] at h₀
      exact BitVec.eq_of_toNat_eq (by simpa using h₀)
    rw [hz] at hq ⊢
    rw [s.pwmPulse_zero] at hq
    obtain ⟨a, b⟩ := h.act (tr' := tr ++ [.pulse 0]) hr hq h.running h.latch h.fb h.rxh (by rw [← h.trace]) h.rem h.txBitCtr
      rfl rfl h.pulseCtr h.pwmOut
    exact ⟨_, _, _, _, a, by simpa using b⟩

end Sys2Proof.Machine
end

