-- ==== Sys2Proof/Laws/PerInstr.lean ====
section
/-! SUPPORT. Per-instruction facts. Family `RoundTrip`: the byte of a well-formed instruction decodes to it
(spec/30_encoding.md R52). -/

namespace Sys2Proof.Laws.RoundTrip

/-- The decoder reads the encoder's byte back. -/
def Statement (i : Instr) : Prop := i.wellFormed = true → decodeByte (encodeByte i) = i

theorem dec : Statement .dec := fun _ => by decide
theorem inc : Statement .inc := fun _ => by decide
theorem ctr : Statement .ctr := fun _ => by decide
theorem rst : Statement .rst := fun _ => by decide
theorem smin : Statement .smin := fun _ => by decide
theorem smax : Statement .smax := fun _ => by decide
theorem dig0 : Statement .dig0 := fun _ => decodeByte_digit 0
theorem dig1 : Statement .dig1 := fun _ => decodeByte_digit 1
theorem dig2 : Statement .dig2 := fun _ => decodeByte_digit 2
theorem dig3 : Statement .dig3 := fun _ => decodeByte_digit 3
theorem dig4 : Statement .dig4 := fun _ => decodeByte_digit 4
theorem dig5 : Statement .dig5 := fun _ => decodeByte_digit 5
theorem dig6 : Statement .dig6 := fun _ => decodeByte_digit 6
theorem dig7 : Statement .dig7 := fun _ => decodeByte_digit 7
theorem dig8 : Statement .dig8 := fun _ => decodeByte_digit 8
theorem dig9 : Statement .dig9 := fun _ => decodeByte_digit 9
theorem inv (b : Byte) : Statement (.inv b) := fun h =>
  decodeByte_invalid b (by simpa [Instr.wellFormed] using h)

end Sys2Proof.Laws.RoundTrip
end

