-- ==== Sys2Proof/Tests/Slice0.lean ====
section
/-! SUPPORT. The model's own tests. Expected results come from spec/95_test_vectors.md (its vector names stand in the
comments) or from the encodings of spec/30_encoding.md. Then a witness for every statement that has hypotheses: a concrete
state and operands that meet all of them. -/

open Sys2Proof Sys2Proof.Machine

namespace Sys2Proof.Tests

/-- The reset state with HOST quiet. -/
def quietState : State := { State.reset with env := .quiet }

/-- HOST quiet, with this latch; INC and OVH stay 50 and 500. -/
def latched (pw min max : Word) : State := { quietState with latch := { Latch.defaults with pw := pw, min := min, max := max } }

/-- HOST quiet, with SEQ in this phase. -/
def inPhase (p : Phase) : State := { quietState with ph := p }

/-- A halted block. -/
def haltedState : State := { quietState with ls := .halted, ph := .stopped }

/-- An idle block in WAIT whose receiver and HOST are at rest. -/
def waiting : State := inPhase .wait

/-- A block whose HOST is about to offer these items. -/
def offering (items : List HostItem) : State := { haltedState with env := { Env.quiet with items := items } }

/-- What the vectors of a command list: PW, MIN, MAX, the event and DLY. -/
def shown (o : Outcome) : Option (Word × Word × Word × Option FeedbackEvent × Word) :=
  match o with
  | .next s => some (s.latch.pw, s.latch.min, s.latch.max, s.fb, s.dly)
  | .fault _ => none
  | .refused _ => none

/-- The state of a next outcome. -/
def nextState (o : Outcome) : Option State :=
  match o with
  | .next s => some s
  | .fault _ => none
  | .refused _ => none

/-! ### Encoding (spec/30_encoding.md R52, spec/opcode_table.json column "encoding") -/

theorem test_decode_dec : decode [0b00101100#8] = .instr .dec [] := by decide
theorem test_decode_inc : decode [0b00101110#8] = .instr .inc [] := by decide
theorem test_decode_ctr : decode [0b00100000#8] = .instr .ctr [] := by decide
theorem test_decode_rst : decode [0b00001101#8] = .instr .rst [] := by decide
theorem test_decode_smin : decode [0b00111100#8] = .instr .smin [] := by decide
theorem test_decode_smax : decode [0b00111110#8] = .instr .smax [] := by decide

/-- `b[7:4] = 0b0011` and `b[3:0]` the digit (R51). -/
theorem test_decode_digits :
    decode [0b00110000#8] = .instr .dig0 [] ∧ decode [0b00110001#8] = .instr .dig1 [] ∧
    decode [0b00110010#8] = .instr .dig2 [] ∧ decode [0b00110011#8] = .instr .dig3 [] ∧
    decode [0b00110100#8] = .instr .dig4 [] ∧ decode [0b00110101#8] = .instr .dig5 [] ∧
    decode [0b00110110#8] = .instr .dig6 [] ∧ decode [0b00110111#8] = .instr .dig7 [] ∧
    decode [0b00111000#8] = .instr .dig8 [] ∧ decode [0b00111001#8] = .instr .dig9 [] := by decide

/-- V-INV-1 to V-INV-9, and the neighbours of the digits and of CR. -/
theorem test_decode_inv :
    ∀ b ∈ ([0x7A, 0x0A, 0x2D, 0x2F, 0x3A, 0xB0, 0x00, 0x3D, 0xFF, 0x0C, 0x0E, 0x1F, 0x21, 0x3B, 0x3F] : List Byte),
      decode [b] = .instr (.inv b) [] := by decide

/-- A command is one byte: the rest is left alone (R50). The example of R59. -/
theorem test_decode_leaves_the_rest : decode [0x2E, 0x2E, 0x3C, 0x0D] = .instr .inc [0x2E, 0x3C, 0x0D] := by decide

/-- There is no command in no bytes; it is rejected by name. -/
theorem test_decode_rejects_nothing : decode [] = .rejected .noByte := by decide

/-- The bytes of R52. -/
theorem test_encode :
    [Instr.dec, .inc, .ctr, .rst, .smin, .smax, .dig0, .dig5, .dig9, .inv 0x7A].map encode =
      [[0x2C], [0x2E], [0x20], [0x0D], [0x3C], [0x3E], [0x30], [0x35], [0x39], [0x7A]] := by decide

/-- WellFormed refuses an invalid command that carries a command byte (R54), and nothing else. -/
theorem test_wellFormed_refuses_command_bytes :
    (commandBytes.map fun b => (Instr.inv b).wellFormed) = List.replicate 16 false := by decide

theorem test_wellFormed_accepts :
    (Instr.inv 0x7A).wellFormed = true ∧ (Instr.inv 0xFF).wellFormed = true ∧ Instr.dec.wellFormed = true ∧
      Instr.dig9.wellFormed = true := by decide

theorem test_decodeTableWord :
    decodeTableWord 8 0x2C = some .dec ∧ decodeTableWord 8 0x37 = some .dig7 ∧ decodeTableWord 8 0x00 = some (.inv 0) ∧
      decodeTableWord 16 0x2C = none := by decide

/-! ### Commands -/

/-- V-DEC-2: floored at MIN, not skipped and not wrapped. -/
theorem test_dec_below_zero : shown (exec .dec (latched 30 0 65535)) = some (0, 0, 65535, some (.width 0), 0) := by decide
/-- V-DEC-3. -/
theorem test_dec_floor : shown (exec .dec (latched 1520 1500 2000)) = some (1500, 1500, 2000, some (.width 1500), 1000) := by
  decide
/-- V-INC-2 and V-INC-3: 65535 is no overflow, 65536 is. -/
theorem test_inc_edge :
    ([65485, 65486].map fun pw => (shown (exec .inc (latched pw 0 65535))).map (·.1)) = [some 65535, some 65486] := by
  decide
/-- V-INC-8: the skip test comes before the ceiling. -/
theorem test_inc_skip_first :
    shown (exec .inc (latched 65500 0 65520)) = some (65500, 0, 65520, some (.width 65500), 65000) := by decide
/-- V-CTR-4: the sum is exact. -/
theorem test_ctr_exact :
    shown (exec .ctr (latched 50000 40000 65535)) =
      some (52768, 40000, 65535, some (.widthBounds 52768 40000 65535), 52268) := by decide
/-- V-CTR-3: the tie goes up. -/
theorem test_ctr_tie :
    shown (exec .ctr (latched 1200 1000 2001)) = some (1501, 1000, 2001, some (.widthBounds 1501 1000 2001), 1001) := by
  decide
/-- V-RST-1. -/
theorem test_rst :
    shown (exec .rst (latched 2000 1500 2000)) = some (1500, 0, 65535, some (.widthBounds 1500 0 65535), 1000) := by decide
/-- V-SMIN-2. -/
theorem test_smin : shown (exec .smin (latched 2000 0 2000)) = some (2000, 2000, 2000, some (.min 2000), 1500) := by decide
/-- V-SMAX-2. -/
theorem test_smax : shown (exec .smax (latched 0 0 65535)) = some (0, 0, 0, some (.max 0), 0) := by decide
/-- V-SMAX-1. -/
theorem test_smax_ordinary :
    shown (exec .smax (latched 1500 0 65535)) = some (1500, 0, 1500, some (.max 1500), 1000) := by decide
/-- V-DIG-1, all ten digits. -/
theorem test_digits_full_range :
    ([Instr.dig0, .dig1, .dig2, .dig3, .dig4, .dig5, .dig6, .dig7, .dig8, .dig9].map fun i =>
      (shown (exec i (latched 1500 0 65535))).map (·.1)) =
      [some 0, some 7282, some 14563, some 21845, some 29127, some 36408, some 43690, some 50972, some 58253,
        some 65535] := by decide
/-- V-DIG-5: 4/9 goes down and 5/9 up. -/
theorem test_digits_rounding :
    ([Instr.dig0, .dig1, .dig2, .dig3, .dig4, .dig5, .dig6, .dig7, .dig8, .dig9].map fun i =>
      (shown (exec i (latched 100 100 101))).map (·.1)) =
      [some 100, some 100, some 100, some 100, some 100, some 101, some 101, some 101, some 101, some 101] := by decide
/-- P2 iteration 13. -/
theorem test_digit_event :
    shown (exec .dig5 (latched 2000 1500 2000)) = some (1778, 1500, 2000, some (.digit 5 1778 1500 2000), 1278) := by decide
/-- V-INV-1. -/
theorem test_inv : shown (exec (.inv 0x7A) (latched 30 7 99)) = some (30, 7, 99, some (.invalid 0x7A), 0) := by decide

/-- V-DLY-1 to V-DLY-6. -/
theorem test_dly :
    ([1500, 500, 501, 499, 0, 65535].map fun pw => (latched pw 0 65535).dly) = ([1000, 0, 1, 0, 0, 65035] : List Word) := by
  decide

/-! ### Single steps -/

/-- A command placed with `withFetchWord` is run by the very next step. -/
theorem test_step_runs_the_placed_command :
    (nextState (step (State.reset.withFetchWord 8 0x2C))).map (fun t => (t.latch.pw, t.fb, t.ph)) =
      some (1450, some (.width 1450), .feedback .emit) := by decide

/-- V-UART-1. -/
theorem test_frame_of_0x2E :
    (List.finRange 10).map (frameBit 0x2E) = [false, false, true, true, true, false, true, false, false, true] := by decide

/-- V-UART-2, as the levels HOST drives. -/
theorem test_frame_of_0x35 :
    (frameSegs 0x35 true).map LineSeg.level =
      [false, true, false, true, false, true, true, false, false, true] := by decide

/-- V-UART-3: the older item is kept. -/
theorem test_overrun :
    (nextState (step { haltedState with rxh := some (.byte 0x2E), rxDone := [.byte 0x2C] })).map
      (fun t => (t.rxh, t.rxDone)) = some (some (.byte 0x2E), []) := by decide

/-- V-PWM-2: no high phase. -/
theorem test_pulse_zero :
    (nextState (step { latched 500 0 65535 with ph := .pulse .enter })).map (fun t => (t.trace, t.pwmOut, t.ph)) =
      some ([.pulse 0], false, .wait) := by decide

/-- V-PWM-1, its beginning. -/
theorem test_pulse_starts :
    (nextState (step (inPhase (.pulse .enter)))).map (fun t => (t.trace, t.pwmOut, t.ph)) =
      some ([.pulse 1000], true, .pulse (.high 1000)) := by decide

/-- V-EXC-1 and V-EXC-2, the read: the item is taken and nothing is recorded yet (R121, R145). -/
theorem test_fault_read :
    ([RxItem.eos, .err].map fun item =>
      (nextState (step { inPhase (.poll (.read 7)) with rxh := some item })).map (fun t => (t.rxh, t.ph, t.trace))) =
      [some (none, .poll (.faulted .endOfStream 7), []), some (none, .poll (.faulted .readError 7), [])] := by decide

/-- V-EXC-1, its end: HALTED, STOPPED, and `Halted` recorded. -/
theorem test_halt :
    (nextState (step (inPhase (.poll (.faultSending []))))).map (fun t => (t.ls, t.ph, t.trace, t.pwmOut)) =
      some (.halted, .stopped, [.halted], false) := by decide

/-- V-RES-1: `rst` in HALTED and in a pulse. -/
theorem test_reset_overrides :
    (nextState (step { haltedState with env := { Env.quiet with rst := true } })).map (fun t => (t.ls, t.ph)) =
      some (.running, .startup .enter) ∧
    (nextState (step { inPhase (.pulse (.high 1000)) with
        pwmOut := true, env := { Env.quiet with rst := true } })).map (fun t => (t.pwmOut, t.ph)) =
      some (false, .startup .enter) := by decide

/-! ### Witnesses: each statement's hypotheses are met -/

theorem witness_ResetOverridesEveryState :
    (∃ s t, step s = .next t ∧ s.env.rst = true ∧ s.ls = .halted) ∧
    ∃ s t, step s = .next t ∧ s.env.rst = false ∧ t.env.rst = true :=
  ⟨⟨{ haltedState with env := { Env.quiet with rst := true } }, _, rfl, rfl, rfl⟩,
    ⟨{ haltedState with env := { Env.quiet with rstPlan := [true] } }, _, rfl, rfl, State.tick_env _ |>.1⟩⟩

/-- A tick in which `rst` rises, one in which it stays 0, and one under reset in which it falls. -/
theorem witness_PlannedResetIsAsserted :
    (∃ s : State, s.turn = .clock ∧ s.env.nextRst = true) ∧ (∃ s : State, s.turn = .clock ∧ s.env.nextRst = false) ∧
    ∃ s : State, s.turn = .reset ∧ s.env.nextRst = false :=
  ⟨⟨{ haltedState with env := { Env.quiet with rstPlan := [true] } }, rfl, rfl⟩, ⟨haltedState, rfl, rfl⟩,
    ⟨{ haltedState with env := { Env.quiet with rst := true } }, rfl, rfl⟩⟩

/-- Bytes at the edges of the ranges of R54. -/
theorem witness_CommandBytesDecodeAsInTheTable :
    ∀ b ∈ ([0x00, 0x0C, 0x0E, 0x2D, 0x2F, 0x3A, 0x3F, 0xFF] : List Byte),
      b ∉ ([0x2C, 0x2E, 0x20, 0x0D, 0x3C, 0x3E, 0x30, 0x31, 0x32, 0x33, 0x34, 0x35, 0x36, 0x37, 0x38, 0x39] : List Byte) := by
  decide

theorem witness_InvReportsTheByte : ∀ b ∈ ([0x00, 0x0C, 0x0E, 0x2D, 0x2F, 0x3A, 0x3F, 0xFF] : List Byte), b ∉ commandBytes := by
  decide

theorem witness_DecodeReadsEncodedInstructionBack :
    (Instr.inv 0x7A).wellFormed = true ∧ Instr.dig9.wellFormed = true := by decide

theorem witness_EveryByteIsOneCommand : (Instr.inv 0x7A).wellFormed = true ∧ encode (.inv 0x7A) = [0x7A] := by decide

/-- The range, and each case of the bound: below, above (only from outside the range), inside. -/
theorem witness_DecLowersPwFlooredAtMin :
    (latched 1520 1500 2000).latch.InRange ∧ (1520 : Int) - 50 < 1500 ∧ (latched 1500 0 65535).latch.InRange ∧
    ¬ (latched 1500 0 100).latch.InRange := by
  unfold Latch.InRange
  decide

theorem witness_IncRaisesPwOrIsSkipped :
    (latched 65486 0 65535).latch.InRange ∧ (latched 65485 0 65535).latch.InRange ∧
    (latched 65486 0 65535).latch.pw.toNat + (latched 65486 0 65535).latch.inc.toNat > 65535 ∧
    (latched 65485 0 65535).latch.pw.toNat + (latched 65485 0 65535).latch.inc.toNat ≤ 65535 := by
  unfold Latch.InRange
  decide

theorem witness_CtrCentresPw :
    (latched 65534 65534 65535).latch.InRange ∧ (latched 0 0 0).latch.InRange := by
  unfold Latch.InRange
  decide

/-- The digits at both ends; inside the range the value is the candidate itself. -/
theorem witness_DigitsInterpolate :
    (latched 100 100 101).latch.InRange ∧
    ((0, .dig0) ∈ ([(0, .dig0), (9, .dig9)] : List (Fin 10 × Instr))) ∧
    ((9, .dig9) ∈ ([(0, .dig0), (9, .dig9)] : List (Fin 10 × Instr))) :=
  ⟨by unfold Latch.InRange; decide, by decide, by decide⟩

theorem witness_RstRestoresDefaults : ∃ t, exec .rst (latched 0 0 0) = .next t := ⟨_, rfl⟩

theorem witness_SminLatchesMin :
    (∃ t, exec .smin (latched 2000 0 2000) = .next t) ∧ (latched 2000 0 2000).latch.InRange ∧
    (latched 2000 0 2000).latch.pw = (latched 2000 0 2000).latch.max ∧
    (latched 2000 1990 2000).latch.InRange ∧ 1990 ≤ (latched 2000 1990 2000).latch.min.toNat ∧ Instr.dec ≠ .rst :=
  ⟨⟨_, rfl⟩, by unfold Latch.InRange; decide, by decide, by unfold Latch.InRange; decide, by decide, by decide⟩

theorem witness_SmaxLatchesMax :
    (∃ t, exec .smax (latched 0 0 65535) = .next t) ∧ (latched 0 0 65535).latch.InRange ∧
    (latched 0 0 65535).latch.pw = (latched 0 0 65535).latch.min :=
  ⟨⟨_, rfl⟩, by unfold Latch.InRange; decide, by decide⟩

/-- The collapsed range and the whole one. -/
theorem witness_DigitZeroIsMinAndNineIsMax :
    (latched 5 5 5).latch.min.toNat ≤ (latched 5 5 5).latch.max.toNat ∧
    (latched 5 0 65535).latch.min.toNat ≤ (latched 5 0 65535).latch.max.toNat := by decide

theorem witness_DigitPositionIsNearest :
    (latched 5 0 9).latch.min.toNat ≤ (latched 5 0 9).latch.max.toNat := by decide

theorem witness_CommandsReadAndWriteTheLatchAlone :
    State.reset.latch = haltedState.latch ∧ State.reset ≠ haltedState := by decide

/-- The range is met at both ends of PW, and by a state whose step writes the latch. -/
theorem witness_CommandsKeepPwInRange :
    (latched 0 0 65535).latch.InRange ∧ (latched 65535 0 65535).latch.InRange ∧
    ∃ t, (inPhase (.dispatch 0x2E 0)).latch.InRange ∧ step (inPhase (.dispatch 0x2E 0)) = .next t ∧
      t.latch ≠ (inPhase (.dispatch 0x2E 0)).latch :=
  ⟨by unfold Latch.InRange; decide, by unfold Latch.InRange; decide, ⟨_, by unfold Latch.InRange; decide, rfl, by decide⟩⟩

/-- Each register is changed by some command. -/
theorem witness_EachRegisterHasItsWriters :
    (∃ t, exec .rst { State.reset with latch := ⟨1, 2, 3, 4, 5⟩ } = .next t ∧ t.latch.pw ≠ 1 ∧ t.latch.min ≠ 2 ∧
      t.latch.max ≠ 3 ∧ t.latch.inc ≠ 4 ∧ t.latch.ovh ≠ 5) :=
  ⟨_, rfl, by decide, by decide, by decide, by decide, by decide⟩

theorem witness_CollapsedRangeHoldsPw :
    (latched 7 3 7).latch.InRange ∧ (latched 7 3 7).latch.pw = (latched 7 3 7).latch.max ∧
    (latched 3 3 7).latch.InRange ∧ (latched 3 3 7).latch.pw = (latched 3 3 7).latch.min ∧
    (latched 3 3 3).latch.InRange ∧ (latched 3 3 3).latch.min = (latched 3 3 3).latch.max ∧ Instr.inc ≠ .rst := by
  unfold Latch.InRange
  decide

/-- Each of the three cases, at its boundary. -/
theorem witness_OutOfRangeIsRecoveredSilently :
    (latched 49 0 65535).latch.InRange ∧ commandCause .dec (latched 49 0 65535).latch = some .outOfRange ∧
    (latched 1951 0 2000).latch.InRange ∧ commandCause .inc (latched 1951 0 2000).latch = some .outOfRange ∧
    (latched 65486 0 65535).latch.InRange ∧ commandCause .inc (latched 65486 0 65535).latch = some .outOfRange := by
  unfold Latch.InRange
  decide

theorem witness_DlyIsPwLessOverhead : (latched 65535 0 65535).latch.ovh = 500 := by decide

theorem witness_StepRunsTheDecodedInstruction :
    (inPhase (.dispatch 0x2E 0)).env.rst = false ∧ (inPhase (.dispatch 0x2E 0)).ls = .running ∧
    (inPhase (.dispatch 0x2E 0)).ph = .dispatch 0x2E 0 ∧ decode [0x2E] = .instr .inc [] := by decide

/-- A step that writes the latch in DISPATCH, and one under reset. -/
theorem witness_OnlyDispatchAndResetWriteTheLatch :
    (∃ t, step (inPhase (.dispatch 0x2E 0)) = .next t ∧ t.latch ≠ (inPhase (.dispatch 0x2E 0)).latch) ∧
    ∃ t, step { latched 7 3 9 with env := { Env.quiet with rst := true } } = .next t ∧ t.latch ≠ (latched 7 3 9).latch :=
  ⟨⟨_, rfl, by decide⟩, ⟨_, rfl, by decide⟩⟩

/-- A step of each of SEQ, the clock and RXU, with `rst` low before and after. -/
theorem witness_PhasesFollowTheLoop :
    (∃ t, step (inPhase (.dispatch 0x2E 0)) = .next t ∧ (inPhase (.dispatch 0x2E 0)).env.rst = false ∧
      t.env.rst = false ∧ t.ph.name ≠ (inPhase (.dispatch 0x2E 0)).ph.name) ∧
    (∃ t, step haltedState = .next t ∧ haltedState.env.rst = false ∧ t.env.rst = false) ∧
    ∃ t, step { haltedState with rxDone := [.eos] } = .next t ∧ t.env.rst = false :=
  ⟨⟨_, rfl, rfl, rfl, by decide⟩, ⟨_, rfl, rfl, haltedState.tick_env.1⟩, ⟨_, rfl, rfl⟩⟩

theorem witness_TraceIsAppendOnly :
    ∃ t, step (inPhase (.pulse .enter)) = .next t ∧ (inPhase (.pulse .enter)).env.rst = false ∧ t.env.rst = false ∧
      t.trace ≠ [] :=
  ⟨_, rfl, rfl, rfl, by decide⟩

theorem witness_IncAndOvhStayAtDefaults :
    (∃ t, step State.reset = .next t ∧ State.reset.latch.inc = 50 ∧ State.reset.latch.ovh = 500) ∧
    ∃ t, exec .rst { State.reset with latch := ⟨1, 2, 3, 4, 5⟩ } = .next t ∧ (t.latch.inc ≠ 4 ∨ t.latch.ovh ≠ 5) :=
  ⟨⟨_, rfl, rfl, rfl⟩, ⟨_, rfl, by decide⟩⟩

/-- Idle, the start bit, the stop bit; a tick; the end of a bit-time; and, where a bit-time is longer than one tick, the
inside of one. -/
theorem witness_TransmitterShiftsTheFrame :
    haltedState.txh = none ∧ ({ haltedState with txh := some (0x2E, 0) } : State).txh = some (0x2E, 0) ∧
    ({ haltedState with txh := some (0x2E, 9) } : State).txh = some (0x2E, 9) ∧
    ({ haltedState with txh := some (0x2E, 8), txBitCtr := Config.BIT_TICKS } : State).turn = .clock ∧
    haltedState.env.nextRst = false ∧
    Config.BIT_TICKS ≤ ({ haltedState with txh := some (0x2E, 8), txBitCtr := Config.BIT_TICKS } : State).txBitCtr + 1 ∧
    (1 < Config.BIT_TICKS → ({ haltedState with txh := some (0x2E, 8) } : State).txBitCtr + 1 < Config.BIT_TICKS) :=
  ⟨rfl, rfl, rfl, rfl, rfl, Nat.le_succ _, fun h => h⟩

theorem witness_TxSendLoadsOrHolds :
    (inPhase (.feedback (.sending [0x41]))).env.rst = false ∧ (inPhase (.feedback (.sending [0x41]))).ls = .running ∧
    (inPhase (.feedback (.sending [0x41]))).txh = none ∧
    ({ inPhase (.startup (.sending [0x42, 0x43])) with txh := some (0x41, 3) } : State).txh ≠ none := by decide

/-- A load and a reset. -/
theorem witness_TxSendLoadsOrHolds_every_step :
    (∃ t, step (inPhase (.feedback (.sending [0x41]))) = .next t ∧ t.txh = some (0x41, 0)) ∧
    ∃ t, step { haltedState with txh := some (0x41, 3), env := { Env.quiet with rst := true } } = .next t ∧ t.txh = none :=
  ⟨⟨_, rfl, rfl⟩, ⟨_, rfl, rfl⟩⟩

theorem witness_TransmissionEndsInAFrameTime :
    ∃ t, ({ haltedState with txh := some (0x41, 9) } : State).txBitCtr < Config.BIT_TICKS ∧
      ({ haltedState with txh := some (0x41, 9) } : State).turn = .clock ∧
      ({ haltedState with txh := some (0x41, 9) } : State).env.nextRst = false ∧
      step { haltedState with txh := some (0x41, 9) } = .next t :=
  ⟨_, Config.bit_ticks_pos, rfl, rfl, rfl⟩

theorem witness_OverrunKeepsTheOlderItem :
    ({ haltedState with rxDone := [.err] } : State).turn = .rxu ∧ ({ haltedState with rxDone := [.err] } : State).rxh = none ∧
    ({ haltedState with rxDone := [.eos], rxh := some .err } : State).turn = .rxu := by decide

/-- A store, an overrun, a read, and a reset. -/
theorem witness_OverrunKeepsTheOlderItem_every_step :
    (∃ t, step { haltedState with rxDone := [.err] } = .next t ∧ t.rxh = some .err) ∧
    (∃ t, step { inPhase (.poll (.read 0)) with rxh := some .eos } = .next t ∧ t.rxh = none) ∧
    ∃ t, step { haltedState with rxh := some .eos, env := { Env.quiet with rst := true } } = .next t ∧ t.rxh = none :=
  ⟨⟨_, rfl, rfl⟩, ⟨_, rfl, rfl⟩, ⟨_, rfl, rfl⟩⟩

/-- A block in the last tick of a frame with this stop bit, behind which HOST offers these items. -/
def lastTick (stop : Bool) (items : List HostItem) : State :=
  { haltedState with
    rxu := .frame 0x2E 9
    rxBitCtr := Config.BIT_TICKS - 1
    env := { Env.quiet with rxd := stop, items := items, line := [.bit stop], lineCtr := Config.BIT_TICKS - 1 } }

theorem lastTick_spec (stop : Bool) (items : List HostItem) :
    (lastTick stop items).LineEnds ∧ (lastTick stop items).env.rxd = stop ∧
    (lastTick stop items).rxuTick.rxu = if stop then .idle else .heldLow := by
  have hpos := Config.bit_ticks_pos
  have h : Config.BIT_TICKS - 1 + 1 = Config.BIT_TICKS := by omega
  refine ⟨⟨by simp [lastTick, segEnds, h], rfl⟩, rfl, ?_⟩
  cases stop <;> simp [State.rxuTick, lastTick, h]

/-- HOST's free input is what it offers once the fixed items have ended (R68). -/
theorem offers_free_input (k : Nat) (it : HostItem) (h : Config.hostItem k = some it) :
    ({ haltedState with env := { Env.quiet with more := some k } } : State).Offers it ∧
    ({ haltedState with env := { Env.quiet with more := some k } } : State).LineEnds := by
  refine ⟨?_, rfl, rfl⟩
  simp [State.Offers, nextLine, Env.quiet, Env.start, h]

/-- Both stop bits, on an idle line and right behind a frame. -/
theorem witness_ReceiverReadsTheOfferedFrame :
    ∀ stop : Bool,
      ((offering [.frame 0x35 stop]).LineEnds ∧ (offering [.frame 0x35 stop]).env.rxd = true ∧
        (offering [.frame 0x35 stop]).rxuTick.rxu = .idle ∧ (offering [.frame 0x35 stop]).Offers (.frame 0x35 stop)) ∧
      ((lastTick true [.frame 0x35 stop]).LineEnds ∧ (lastTick true [.frame 0x35 stop]).env.rxd = true ∧
        (lastTick true [.frame 0x35 stop]).rxuTick.rxu = .idle ∧
        (lastTick true [.frame 0x35 stop]).Offers (.frame 0x35 stop)) :=
  fun _ => ⟨⟨⟨rfl, rfl⟩, rfl, rfl, rfl⟩, (lastTick_spec true _).1, rfl, (lastTick_spec true _).2.2, rfl⟩

/-- On an idle line, and right behind a frame with either stop bit. -/
theorem witness_EndOfStreamArrivesInAFrameTime :
    ((offering [.eos, .frame 0x2E true]).LineEnds ∧ (offering [.eos, .frame 0x2E true]).rxuTick.rxu = .idle ∧
      (offering [.eos, .frame 0x2E true]).Offers .eos) ∧
    ((lastTick true [.eos]).LineEnds ∧ (lastTick true [.eos]).rxuTick.rxu = .idle ∧ (lastTick true [.eos]).Offers .eos) ∧
    ((lastTick false [.eos]).LineEnds ∧ (lastTick false [.eos]).rxuTick.rxu = .heldLow ∧ (lastTick false [.eos]).Offers .eos) :=
  ⟨⟨⟨rfl, rfl⟩, rfl, rfl⟩, ⟨(lastTick_spec true _).1, (lastTick_spec true _).2.2, rfl⟩, (lastTick_spec false _).1,
    (lastTick_spec false _).2.2, rfl⟩

/-- The shortest break, with nothing after it, and with a frame at once after it; in the second clause `k` is 0. Then a line
held low. -/
theorem witness_BreakIsOneReadError :
    (∀ rest ∈ ([[], [.frame 0x2E true]] : List (List HostItem)),
      (offering (.lineBreak 0 :: rest)).LineEnds ∧ (offering (.lineBreak 0 :: rest)).env.rxd = true ∧
      (offering (.lineBreak 0 :: rest)).rxuTick.rxu = .idle ∧
      nextLine [] (offering (.lineBreak 0 :: rest)).env.items (offering (.lineBreak 0 :: rest)).env.more =
        (itemSegs (.lineBreak 0), rest, none)) ∧
    ({ lastTick false [] with rxu := .heldLow } : State).rxu = .heldLow ∧
    ({ lastTick false [] with rxu := .heldLow } : State).env.rxd = false :=
  ⟨fun _ _ => ⟨⟨rfl, rfl⟩, rfl, rfl, rfl⟩, rfl, rfl⟩

theorem witness_FaultIterationHalts :
    ∀ item ∈ ([.eos, .err] : List RxItem),
      ({ waiting with rxh := some item } : State).HostQuiet ∧ ({ waiting with rxh := some item } : State).ls = .running ∧
      ({ waiting with rxh := some item } : State).ph = .wait ∧ ({ waiting with rxh := some item } : State).waitCtr = 0 ∧
      ({ waiting with rxh := some item } : State).pwmOut = false ∧
      ({ waiting with rxh := some item } : State).txBitCtr < Config.BIT_TICKS :=
  fun _ _ => ⟨⟨rfl, rfl, rfl, rfl, rfl, rfl, rfl, rfl, rfl⟩, rfl, rfl, rfl, rfl, Config.bit_ticks_pos⟩

/-- A tick with the receiver idle and one with it inside a frame. -/
theorem witness_TickMovesTheLine :
    haltedState.turn = .clock ∧ haltedState.env.nextRst = false ∧
    ({ haltedState with rxu := .frame 0 9 } : State).turn = .clock ∧
    ({ haltedState with rxu := .frame 0 9 } : State).env.nextRst = false := by decide

theorem witness_FeedbackEmitsTheEvent :
    ∀ ev ∈ ([.width 1550, .invalid 0x7A] : List FeedbackEvent),
      ({ inPhase (.feedback .emit) with fb := some ev } : State).env.rst = false ∧
      ({ inPhase (.feedback .emit) with fb := some ev } : State).ls = .running ∧
      ({ inPhase (.feedback .emit) with fb := some ev } : State).ph = .feedback .emit ∧
      ({ inPhase (.feedback .emit) with fb := some ev } : State).fb = some ev := by decide

/-- Each item. -/
theorem witness_ReadTakesTheItem :
    ∀ item ∈ ([.byte 0x2E, .eos, .err] : List RxItem),
      ({ inPhase (.poll (.read 0)) with rxh := some item } : State).turn = .seq ∧
      ({ inPhase (.poll (.read 0)) with rxh := some item } : State).ph = .poll (.read 0) := by decide

theorem witness_ReadNeverHolds :
    ∃ t, ({ inPhase (.poll (.read 0)) with rxh := some .eos } : State).ReadHasItem ∧
      step { inPhase (.poll (.read 0)) with rxh := some .eos } = .next t ∧
      ({ inPhase (.poll (.read 0)) with rxh := some .eos } : State).ls = .running :=
  ⟨_, fun _ _ => rfl, rfl, rfl⟩

theorem witness_PollSeesRxh :
    (inPhase (.poll .sample)).turn = .seq ∧ (inPhase (.poll .sample)).rxh = none ∧
    ({ inPhase (.poll .sample) with rxh := some .eos } : State).turn = .seq ∧
    ({ inPhase (.poll .sample) with rxh := some .eos } : State).rxh ≠ none := by decide

theorem witness_PollRaceLosesNoItem :
    ({ inPhase (.poll .sample) with rxDone := [.byte 0x2E] } : State).env.rst = false ∧
    ({ inPhase (.poll .sample) with rxDone := [.byte 0x2E] } : State).ls = .running ∧
    ({ inPhase (.poll .sample) with rxDone := [.byte 0x2E] } : State).rxh = none := by decide

/-- DLY at 1, 1000 and 0; the pulse at its beginning and its end. -/
theorem witness_PulseLastsExactlyDly :
    0 < (latched 501 0 65535).dly.toNat ∧ 0 < State.reset.dly.toNat ∧ (latched 500 0 65535).dly.toNat = 0 ∧
    (inPhase (.pulse .enter)).env.rst = false ∧ (inPhase (.pulse .enter)).ls = .running ∧
    (inPhase (.pulse (.high 1000))).pulseCtr ≤ (1000 : Word).toNat * Config.US_TICKS ∧
    ({ inPhase (.pulse (.high 1000)) with pulseCtr := (1000 : Word).toNat * Config.US_TICKS } : State).pulseCtr ≤
      (1000 : Word).toNat * Config.US_TICKS :=
  ⟨by decide, by decide, by decide, rfl, rfl, Nat.zero_le _, Nat.le_refl _⟩

theorem witness_PwmIsHighOnlyInAPulse :
    (∃ t, haltedState.RegistersAgree ∧ step haltedState = .next t) ∧
    ∃ t, (inPhase (.pulse .enter)).RegistersAgree ∧ step (inPhase (.pulse .enter)) = .next t :=
  ⟨⟨_, ⟨by decide, rfl⟩, rfl⟩, ⟨_, ⟨by decide, rfl⟩, rfl⟩⟩

/-- The refresh wait at its beginning and its end. -/
theorem witness_WaitLastsExactly20000Us :
    waiting.env.rst = false ∧ waiting.ls = .running ∧ waiting.ph = .wait ∧ waiting.waitCtr ≤ 20000 * Config.US_TICKS ∧
    ({ waiting with waitCtr := 20000 * Config.US_TICKS } : State).waitCtr ≤ 20000 * Config.US_TICKS :=
  ⟨rfl, rfl, rfl, Nat.zero_le _, Nat.le_refl _⟩

/-- Both faults at the read, the fault after its own time, a message byte to send, and the end of the path. -/
theorem witness_StreamFaultHaltsTheBlock :
    ({ inPhase (.poll (.read 0)) with rxh := some .eos } : State).turn = .seq ∧
    ({ inPhase (.poll (.read 0)) with rxh := some .err } : State).turn = .seq ∧
    (inPhase (.poll (.faulted .endOfStream 0))).env.rst = false ∧
    (inPhase (.poll (.faulted .endOfStream 0))).ls = .running ∧
    (inPhase (.poll (.faultSending [0x21]))).turn = .seq ∧ (inPhase (.poll (.faultSending []))).env.rst = false ∧
    (inPhase (.poll (.faultSending []))).ls = .running := by decide

theorem witness_OnlyAStreamFaultHalts :
    ∃ t, step (inPhase (.poll (.faultSending []))) = .next t ∧ (inPhase (.poll (.faultSending []))).ls = .running ∧
      t.ls = .halted :=
  ⟨_, rfl, rfl, rfl⟩

theorem witness_FinalRunKeepsItsResult : haltedState.Final ∧ haltedState.env.rst = false := ⟨⟨rfl, rfl⟩, rfl⟩

/-- With the transmitter at rest and with it still sending; RXH filled. -/
theorem witness_HaltedIsTerminal :
    haltedState.RegistersAgree ∧ haltedState.txh = none ∧ haltedState.env.rst = false ∧
    ({ haltedState with txh := some (0x41, 3), rxh := some .eos } : State).RegistersAgree ∧
    ({ haltedState with txh := some (0x41, 3), rxh := some .eos } : State).txBitCtr < Config.BIT_TICKS :=
  ⟨⟨by decide, rfl⟩, rfl, rfl, ⟨by decide, rfl⟩, Config.bit_ticks_pos⟩

theorem witness_StepsKeepTraceInTheLoop :
    ∃ t, ({ inPhase (.pulse .enter) with trace := [.waited 20000] } : State).TraceFollowsLoop ∧
      ({ inPhase (.pulse .enter) with trace := [.waited 20000] } : State).EventPending ∧
      step { inPhase (.pulse .enter) with trace := [.waited 20000] } = .next t :=
  ⟨_, ⟨.waited, by decide, by decide⟩, ⟨by decide, fun _ h => nomatch h⟩, rfl⟩

/-- A state in the third iteration, whose step records the pulse of it; the first had a command. -/
theorem witness_AtMostOneEventAndPulsePerWait :
    ∃ s t : State, s.TraceFollowsLoop ∧ s.EventPending ∧ step s = .next t ∧
      t.trace = [.txByte 0x48, .waited 20000, .feedback (.width 1550), .txByte 0x31, .pulse 1050, .waited 20000,
        .pulse 1050, .waited 20000, .pulse 1000] :=
  ⟨{ inPhase (.pulse .enter) with
      trace := [.txByte 0x48, .waited 20000, .feedback (.width 1550), .txByte 0x31, .pulse 1050, .waited 20000, .pulse 1050,
        .waited 20000] },
    _, ⟨.waited, by decide, by decide⟩, ⟨by decide, fun _ h => nomatch h⟩, rfl, by decide⟩

theorem witness_IdleIterationPeriod :
    waiting.HostQuiet ∧ waiting.ls = .running ∧ waiting.ph = .wait ∧ waiting.waitCtr = 0 ∧
    waiting.rxh = none ∧ waiting.txBitCtr < Config.BIT_TICKS :=
  ⟨⟨rfl, rfl, rfl, rfl, rfl, rfl, rfl, rfl, rfl⟩, rfl, rfl, rfl, rfl, Config.bit_ticks_pos⟩

theorem witness_CommandIterationPeriod :
    ({ waiting with rxh := some (.byte 0x2E) } : State).HostQuiet ∧
    ({ waiting with rxh := some (.byte 0x2E) } : State).ls = .running ∧
    ({ waiting with rxh := some (.byte 0x2E) } : State).ph = .wait ∧
    ({ waiting with rxh := some (.byte 0x2E) } : State).waitCtr = 0 ∧
    ({ waiting with rxh := some (.byte 0x2E) } : State).txBitCtr < Config.BIT_TICKS :=
  ⟨⟨rfl, rfl, rfl, rfl, rfl, rfl, rfl, rfl, rfl⟩, rfl, rfl, rfl, Config.bit_ticks_pos⟩

theorem witness_RecordedDurationsHavePassed :
    ∃ t, ({ inPhase (.pulse .enter) with trace := [.waited 20000], now := 20000 * Config.US_TICKS } : State).DurationsElapsed ∧
      step { inPhase (.pulse .enter) with trace := [.waited 20000], now := 20000 * Config.US_TICKS } = .next t :=
  ⟨_, by simp [State.DurationsElapsed, recordedUs, Event.us, inPhase, quietState, State.reset, Phase.pulseTicks], rfl⟩

/-- The invariant in DISPATCH, in the middle of an iteration. -/
theorem witness_StepsKeepTheInvariant :
    ∃ t, ({ inPhase (.dispatch 0x2E 0) with trace := [.waited 20000], now := 20000 * Config.US_TICKS } : State).Inv ∧
      step { inPhase (.dispatch 0x2E 0) with trace := [.waited 20000], now := 20000 * Config.US_TICKS } = .next t :=
  ⟨_,
    { inRange := by unfold Latch.InRange; decide
      constants := by unfold Latch.ConstantsHeld; decide
      registers := ⟨by decide, rfl⟩
      pulse := fun _ h => nomatch h
      counters := ⟨Nat.zero_le _, fun _ => rfl, fun _ => rfl, Config.bit_ticks_pos, fun _ => rfl, Config.bit_ticks_pos,
        fun _ => rfl, Nat.zero_le _⟩
      event := ⟨by decide, fun _ h => nomatch h⟩
      trace := ⟨.waited, by decide, by decide⟩
      durations := by simp [State.DurationsElapsed, recordedUs, Event.us, inPhase, quietState, State.reset, Phase.pulseTicks]
      line := rfl
      read := fun _ h => nomatch h },
    rfl⟩

/-- A bit rate that no whole number of cycles of a 16 MHz clock gives. -/
theorem witness_BitTimeIsOneOverBaud : 0 < 16 ∧ (10000 : Rat) < 115200 := by decide

end Sys2Proof.Tests
end

section
/-! SUPPORT. SEQ's actions, said once: when the turn is SEQ's, and every action it can take, each with what must hold for it
(spec/43_control_loop.md R104, spec/60_exceptions.md R121, spec/70_reset_and_hazards.md R133). -/

namespace Sys2Proof.Machine

/-- Where SEQ is ready and does not use RXH, the turn is SEQ's (R45, R46). -/
theorem State.turn_eq_seq {s : State} (hr : s.env.rst = false) (hq : s.seqReady = true) (hu : s.ph.usesRxh = false) :
    s.turn = .seq := by
  simp [State.turn, hr, hq, hu]

/-- On SEQ's turn the step is SEQ's action. -/
theorem step_of_turn_seq {s : State} (h : s.turn = .seq) : step s = s.seqStep := by
  simp [step, h]

/-- Whoever's turn it is, there is a next state. -/
theorem step_answers_next (s : State) : ∃ t, step s = .next t := by
  unfold step
  split
  case h_2 => exact s.seqStep_next
  all_goals exact ⟨_, rfl⟩

/-- Where SEQ is ready and does not use RXH, the step is SEQ's action. -/
theorem step_of_seqReady {s : State} (hr : s.env.rst = false) (hq : s.seqReady = true) (hu : s.ph.usesRxh = false) :
    step s = s.seqStep :=
  step_of_turn_seq (State.turn_eq_seq hr hq hu)

theorem mem_sendPlaces {place : List Byte → Phase} : place ∈ sendPlaces ↔
    place = (fun bs => .startup (.sending bs)) ∨ place = (fun bs => .feedback (.sending bs)) ∨
      place = fun bs => .poll (.faultSending bs) := by
  simp only [sendPlaces, List.mem_cons, List.not_mem_nil, or_false]

section
variable {s : State} {place : List Byte → Phase} {b : Byte} {bs : List Byte}

/-- In a place that sends, with a byte to go, SEQ waits for TXH alone (R63). -/
theorem State.seqReady_sends (hm : place ∈ sendPlaces) (hp : s.ph = place (b :: bs)) (hl : s.ls = .running) :
    s.seqReady = s.txEmpty := by
  obtain rfl | rfl | rfl := mem_sendPlaces.mp hm <;> simp [State.seqReady, hp, hl]

/-- In a place that sends, SEQ's action is to load the next byte and go on to the rest (R63). -/
theorem State.seqStep_sends (hm : place ∈ sendPlaces) (hp : s.ph = place (b :: bs)) :
    s.seqStep = .next { s.txSend b with ph := place bs } := by
  obtain rfl | rfl | rfl := mem_sendPlaces.mp hm <;> simp only [State.seqStep, hp]

/-- In a place that sends, SEQ does not use RXH. -/
theorem usesRxh_sendPlaces (hm : place ∈ sendPlaces) (bs : List Byte) : (place bs).usesRxh = false := by
  obtain rfl | rfl | rfl := mem_sendPlaces.mp hm <;> rfl

/-- In a place that sends, no timer of SEQ runs. -/
theorem State.seqTick_sends (hm : place ∈ sendPlaces) (hp : s.ph = place bs) : s.seqTick = s := by
  obtain rfl | rfl | rfl := mem_sendPlaces.mp hm <;> cases hl : s.ls <;> simp only [State.seqTick, hl, hp]

end

/-- The item whose read is a stream fault of this kind (R118, R119). -/
def faultItem : FaultKind → RxItem
  | .endOfStream => .eos
  | .readError => .err

/-- Reading a fault's item empties RXH and leads to the stream-fault path (R107, R121). -/
theorem State.pollRead_fault {s : State} {kind : FaultKind} (own : Nat) (h : s.rxh = some (faultItem kind)) :
    s.pollRead own = { s with rxh := none, ph := .poll (.faulted kind own), free := s.free + 1 } := by
  cases kind <;> simp only [State.pollRead, s.rxTake_some h, faultItem]

/-- Reading a byte empties RXH and leads to DISPATCH (R107). -/
theorem State.pollRead_byte {s : State} {b : Byte} (own : Nat) (h : s.rxh = some (.byte b)) :
    s.pollRead own = { s with rxh := none, ph := .dispatch b own, free := s.free + 1 } := by
  simp only [State.pollRead, s.rxTake_some h]

/-- With an event in hand, FEEDBACK records it, drops it, and sends its bytes (R109). -/
theorem State.emitFeedback_some {s : State} {ev : FeedbackEvent} (h : s.fb = some ev) :
    s.emitFeedback = { s.emit ev (fun bs => .feedback (.sending bs)) with fb := none } := by
  simp only [State.emitFeedback, h]

/-- DISPATCH commits the decoder's new latch and event and goes on to FEEDBACK (R76, R108). -/
theorem State.dispatchByte_eq (s : State) (b : Byte) :
    s.dispatchByte b = .next (s.commit (interpret s.latch b)).toFeedback := by
  simp only [State.dispatchByte, exec_eq_commit, interpret]

/-- The actions of SEQ: `s.SeqMove t` says that SEQ, where it is in `s`, can act now and that `t` is what its action leaves.
One constructor for each action, with what holds where it is taken. -/
inductive State.SeqMove (s : State) : State → Prop
  | startupBegins (hp : s.ph = .startup .enter) :
      s.SeqMove { s with ph := .startup (.sending Config.STARTUP_TX) }
  | startupSent (hp : s.ph = .startup (.sending [])) : s.SeqMove { s with ph := .startup (.holding 0) }
  | startupEnds (elapsed : Nat) (hp : s.ph = .startup (.holding elapsed)) (hw : Config.T_STARTUP_TICKS ≤ elapsed) :
      s.SeqMove { s.startWait with ls := .running }
  | sends (place : List Byte → Phase) (b : Byte) (bs : List Byte) (hm : place ∈ sendPlaces) (hp : s.ph = place (b :: bs))
      (hx : s.txh = none) : s.SeqMove { s.txSend b with ph := place bs }
  | waitEnds (hp : s.ph = .wait) (hw : Config.T_WAIT_TICKS ≤ s.waitCtr) :
      s.SeqMove { s.record (.waited Config.T_WAIT_US) with ph := .poll .sample, waitCtr := 0 }
  | polls (hp : s.ph = .poll .sample) : s.SeqMove s.pollSample
  | findsNothing (hp : s.ph = .poll (.nothing 0)) : s.SeqMove { s with ph := .pulse .enter }
  | readsByte (own : Nat) (b : Byte) (hp : s.ph = .poll (.read own)) (hx : s.rxh = some (.byte b)) :
      s.SeqMove { s with rxh := none, ph := .dispatch b own, free := s.free + 1 }
  | readsFault (own : Nat) (kind : FaultKind) (hp : s.ph = .poll (.read own)) (hx : s.rxh = some (faultItem kind)) :
      s.SeqMove { s with rxh := none, ph := .poll (.faulted kind own), free := s.free + 1 }
  | faults (kind : FaultKind) (hp : s.ph = .poll (.faulted kind 0)) : s.SeqMove (s.raiseStreamFault kind)
  | halts (hp : s.ph = .poll (.faultSending [])) : s.SeqMove s.halt
  | dispatches (b : Byte) (hp : s.ph = .dispatch b 0) : s.SeqMove (s.commit (interpret s.latch b)).toFeedback
  | emits (ev : FeedbackEvent) (hp : s.ph = .feedback .emit) (hf : s.fb = some ev) :
      s.SeqMove { s.emit ev (fun bs => .feedback (.sending bs)) with fb := none }
  | emitsNothing (hp : s.ph = .feedback .emit) (hf : s.fb = none) : s.SeqMove { s with ph := .pulse .enter }
  | messageSent (hp : s.ph = .feedback (.sending [])) : s.SeqMove { s with ph := .pulse .enter }
  | pulseBegins (hp : s.ph = .pulse .enter) (hd : 0 < s.dly) :
      s.SeqMove { s with
        trace := s.trace ++ [.pulse s.dly], pwmOut := true, pulseCtr := 0, ph := .pulse (.high s.dly) }
  | pulseEmpty (hp : s.ph = .pulse .enter) (hd : s.dly = 0) :
      s.SeqMove { s with trace := s.trace ++ [.pulse 0], ph := .wait, waitCtr := 0 }
  | pulseEnds (d : Word) (hp : s.ph = .pulse (.high d)) (hw : d.toNat * Config.US_TICKS ≤ s.pulseCtr) :
      s.SeqMove s.pwmEnd

/-- SEQ acts in RUNNING only (R111). -/
theorem State.running_of_seqReady {s : State} (h : s.seqReady = true) : s.ls = .running := by
  cases hl : s.ls
  · rfl
  · rw [State.seqReady_halted hl] at h
    cases h

/-- Each action SEQ takes is one of those listed. The cases `h_1` to `h_18` are the branches of `State.seqStep`, in its order. -/
theorem State.seqMove_of_seqStep {s t : State} (hq : s.seqReady = true) (h : s.seqStep = .next t) : s.SeqMove t := by
  have hl := State.running_of_seqReady hq
  unfold State.seqStep at h
  split at h <;> rename_i hp <;> simp only [State.seqReady, hl, hp, decide_true, Bool.true_and, decide_eq_true_eq] at hq
  case h_12 b own =>
    subst hq
    rw [s.dispatchByte_eq] at h
    exact Host.Outcome.next.inj h ▸ .dispatches b hp
  all_goals obtain rfl := Host.Outcome.next.inj h
  case h_1 => exact .startupBegins hp
  case h_2 => exact .startupSent hp
  case h_3 b bs => exact .sends _ b bs (mem_sendPlaces.mpr (.inl rfl)) hp (Option.isNone_iff_eq_none.mp hq)
  case h_4 elapsed => exact .startupEnds elapsed hp hq
  case h_5 => exact .waitEnds hp hq
  case h_6 => exact .polls hp
  case h_7 own => exact .findsNothing (hq ▸ hp)
  case h_8 own =>
    obtain ⟨item, hx⟩ := Option.isSome_iff_exists.mp hq
    cases item with
    | byte b => exact s.pollRead_byte own hx ▸ .readsByte own b hp hx
    | eos => exact s.pollRead_fault (kind := .endOfStream) own hx ▸ .readsFault own .endOfStream hp hx
    | err => exact s.pollRead_fault (kind := .readError) own hx ▸ .readsFault own .readError hp hx
  case h_9 kind own => exact .faults kind (hq ▸ hp)
  case h_10 => exact .halts hp
  case h_11 b bs => exact .sends _ b bs (mem_sendPlaces.mpr (.inr (.inr rfl))) hp (Option.isNone_iff_eq_none.mp hq)
  case h_13 =>
    cases hf : s.fb with
    | some ev => exact s.emitFeedback_some hf ▸ .emits ev hp hf
    | none => simpa only [State.emitFeedback, hf] using State.SeqMove.emitsNothing hp hf
  case h_14 => exact .messageSent hp
  case h_15 b bs => exact .sends _ b bs (mem_sendPlaces.mpr (.inr (.inl rfl))) hp (Option.isNone_iff_eq_none.mp hq)
  case h_16 =>
    by_cases hd : 0 < s.dly
    · exact s.pwmPulse_pos hd ▸ .pulseBegins hp hd
    · have hz : s.dly = 0 := by simpa using hd
      rw [hz, s.pwmPulse_zero]
      exact .pulseEmpty hp hz
  case h_17 d => exact .pulseEnds d hp hq
  case h_18 => cases hq

end Sys2Proof.Machine
end

section
/-! SUPPORT. What a step can do to TXH (spec/40_serial_transport.md R63, R64). -/

namespace Sys2Proof.Machine

/-- SEQ writes TXH only by sending a byte into an empty one (R30, R63). -/
theorem State.SeqMove.txh {s t : State} (h : s.SeqMove t) :
    t.txh = s.txh ∨ ∃ place ∈ sendPlaces, ∃ b bs, s.ph = place (b :: bs) ∧ s.txh = none ∧
      t = { s.txSend b with ph := place bs } := by
  cases h
  case sends place b bs hm hp hx => exact .inr ⟨place, hm, b, bs, hp, hx, rfl⟩
  all_goals exact .inl rfl

/-- TXU's tick leaves TXH, moves it to the next frame bit, or empties it after bit 9 (R64). -/
theorem State.txuTick_txh (s : State) :
    s.txuTick.txh = s.txh ∨ ∃ (b : Byte) (i : Fin 10), s.txh = some (b, i) ∧
      ((∃ h : i.val < 9, s.txuTick.txh = some (b, ⟨i.val + 1, by omega⟩)) ∨ (i.val = 9 ∧ s.txuTick.txh = none)) := by
  unfold State.txuTick
  rcases hx : s.txh with _ | ⟨b, i⟩
  · exact .inl hx
  · by_cases hb : s.txBitCtr + 1 < Config.BIT_TICKS
    · simp [hb]
    · by_cases hi : i.val < 9
      · exact .inr ⟨b, i, rfl, .inl ⟨hi, by simp only [hb, hi, if_false, dif_pos]⟩⟩
      · exact .inr ⟨b, i, rfl, .inr ⟨by omega, by simp only [hb, hi, if_false, dif_neg, not_false_eq_true]⟩⟩

/-- Where SEQ is to send and TXH is full, it is held: neither PH nor the trace moves, unless `rst` rises (R63). -/
theorem step_holds_full_txh {s t : State} {place : List Byte → Phase} {b : Byte} {bs : List Byte} (hm : place ∈ sendPlaces)
    (hp : s.ph = place (b :: bs)) (hr : s.env.rst = false) (hl : s.ls = .running) (hx : s.txh ≠ none)
    (h : step s = .next t) (ht : t.env.rst = false) : t.ph = s.ph ∧ t.trace = s.trace := by
  have hq : s.seqReady = false := by
    rw [State.seqReady_sends hm hp hl]
    simpa only [State.txEmpty, Option.isNone_eq_false_iff, Option.isSome_iff_ne_none] using hx
  obtain ⟨h₁, -⟩ | ⟨-, h₁, -⟩ | ⟨-, -, rfl⟩ | ⟨-, -, rfl⟩ := step_cases h
  · rw [hr] at h₁
    cases h₁
  · rw [hq] at h₁
    cases h₁
  · obtain ⟨x, q, k, e⟩ := s.rxuStore_form
    rw [e]
    exact ⟨rfl, rfl⟩
  · have hn : s.env.nextRst = false := s.tick_env.1 ▸ ht
    obtain ⟨-, -, hph, -, -, -, -, -, -, -, htr, -⟩ := s.tick_fields hn
    exact ⟨by rw [hph, State.seqTick_sends hm hp], htr⟩

end Sys2Proof.Machine
end

section
/-! SUPPORT. Recorded durations against the model's clock (spec/10_state.md R33, log entry 4): each part of a step keeps the
balance of what is recorded and counted. -/

namespace Sys2Proof.Machine

@[simp] theorem recordedUs_nil : recordedUs [] = 0 := rfl

@[simp] theorem recordedUs_append_one (es : List Event) (e : Event) : recordedUs (es ++ [e]) = recordedUs es + e.us := by
  simp [recordedUs]

/-- The ticks recorded in the trace and counted in the present wait or pulse. -/
def State.tickedOff (s : State) : Nat := recordedUs s.trace * Config.US_TICKS + s.waitCtr + s.pulseCtr

theorem State.durationsElapsed_iff (s : State) : s.DurationsElapsed ↔ s.tickedOff ≤ s.now + s.ph.pulseTicks := Iff.rfl

/-- At reset nothing is recorded or counted (R36). -/
theorem State.tickedOff_reset (k : Nat) (e : Env) : ({ State.reset with free := k, env := e } : State).tickedOff = 0 := by
  simp [State.tickedOff, State.reset]

/-- No pulse is in progress in a place that sends. -/
theorem pulseTicks_sendPlaces {place : List Byte → Phase} (hm : place ∈ sendPlaces) (bs : List Byte) :
    (place bs).pulseTicks = 0 := by
  obtain rfl | rfl | rfl := mem_sendPlaces.mp hm <;> rfl

/-- The poll leaves SEQ in POLL, and its counters and the trace as they are. -/
theorem State.pollSample_tickedOff (s : State) :
    s.pollSample.tickedOff = s.tickedOff ∧ s.pollSample.ph.pulseTicks = 0 := by
  refine ⟨rfl, ?_⟩
  unfold State.pollSample
  cases s.rxAvail <;> rfl

/-- SEQ's actions take no time: a duration is recorded when it has been counted, and its counter starts again, or when the
pulse begins that is to last so long. -/
theorem State.SeqMove.tickedOff_le {s t : State} (h : s.SeqMove t) :
    t.tickedOff + s.ph.pulseTicks ≤ s.tickedOff + t.ph.pulseTicks := by
  cases h
  case sends place b bs hm hp hx =>
    rw [hp, pulseTicks_sendPlaces hm]
    simp [State.tickedOff, Event.us]
  case polls hp =>
    rw [hp, s.pollSample_tickedOff.1]
    simp [Phase.pulseTicks]
  case waitEnds hp hw =>
    rw [hp]
    rw [Config.t_wait_ticks_eq] at hw
    simp only [State.tickedOff, State.record_trace, State.record_pulseCtr, recordedUs_append_one, Event.us,
      Config.T_WAIT_US, Nat.add_mul, Phase.pulseTicks]
    omega
  case pulseBegins hp hd =>
    rw [hp]
    simp only [State.tickedOff, recordedUs_append_one, Event.us, Nat.add_mul, Phase.pulseTicks]
    omega
  case pulseEnds d hp hw =>
    rw [hp]
    simp only [State.tickedOff, State.pwmEnd, Phase.pulseTicks]
    omega
  case startupBegins hp | startupSent hp | startupEnds _ hp _ | findsNothing hp | readsByte _ _ hp _ | readsFault _ _ hp _ |
      faults _ hp | halts hp | dispatches _ hp | emits _ hp _ | emitsNothing hp _ | messageSent hp | pulseEmpty hp _ =>
    rw [hp]
    simp [State.tickedOff, State.raiseStreamFault_eq, State.toFeedback, Event.us, Phase.pulseTicks]

/-- A tick counts at most one tick, and leaves the pulse in progress what it is. -/
theorem State.seqTick_counts (s : State) :
    s.seqTick.waitCtr + s.seqTick.pulseCtr ≤ s.waitCtr + s.pulseCtr + 1 ∧ s.seqTick.ph.pulseTicks = s.ph.pulseTicks := by
  unfold State.seqTick
  split
  · exact ⟨by omega, rfl⟩
  · split <;> rename_i hp <;> exact ⟨by grind, by simp [hp, Phase.pulseTicks]⟩

end Sys2Proof.Machine
end

section
/-! SUPPORT. The digit positions in the bound range (spec/41_command_interpreter.md R87) and the bit rates of the OPEN constants
(spec/00_scope.md R6, log entry 7). -/

namespace Sys2Proof.Machine

/-- A digit's position lies in the bound range, so the clamp of R87 does nothing. -/
theorem Latch.digitPosition_mem (l : Latch) (d : Fin 10) (h : l.min.int ≤ l.max.int) :
    l.min.int ≤ l.digitPosition d ∧ l.digitPosition d ≤ l.max.int := by
  have h₀ : 0 ≤ (d.val : Int) * (l.max.int - l.min.int) := mul_nonneg (Int.natCast_nonneg _) (by omega)
  have h₉ : (d.val : Int) * (l.max.int - l.min.int) ≤ 9 * (l.max.int - l.min.int) :=
    mul_le_mul_of_nonneg_right (by omega) (by omega)
  rw [Latch.digitPosition_eq]
  omega

end Sys2Proof.Machine

namespace Sys2Proof.Config

/-- In ticks, a rate is above 10000 exactly when its bit-time is shorter than 100 microseconds (R6). -/
theorem lt_baudOf_iff {cyc clk bit : Nat} (hb : 0 < bit) : 10000 < baudOf cyc clk bit ↔ bit < 100 * cyc * clk := by
  have hb' : (0 : Rat) < bit := Nat.cast_pos.mpr hb
  have e : 100 * cyc * clk * 10000 = cyc * 1000000 * clk := by ring
  rw [baudOf, lt_div_iff₀ hb', ← e]
  norm_cast
  omega

/-- A rate times its bit-time is the clock, both in ticks (R57). -/
theorem baudOf_mul_bit (cyc clk : Nat) {bit : Nat} (hb : 0 < bit) :
    baudOf cyc clk bit * bit = (cyc * 1000000 : Nat) * (clk : Rat) := by
  rw [baudOf, div_mul_cancel₀ _ (Nat.cast_pos.mpr hb).ne', Nat.cast_mul]

/-- Every bit-time shorter than 100 microseconds is chosen by some value of the OPEN constant (R6). -/
theorem bitTicksOf_surjective {cyc clk bit : Nat} (h₀ : 0 < bit) (h₁ : bit < 100 * cyc * clk) :
    bitTicksOf cyc clk (bit - 1) = bit := by
  rw [bitTicksOf, Nat.mod_eq_of_lt (by omega)]
  omega

/-- With `b`'s numerator as ticks in a clock cycle, a bit-time is a whole number of ticks (log entry 7). -/
theorem baudOf_num_den (cyc : Nat) (b : Rat) (hc : 0 < cyc) (hb : 0 < b) :
    baudOf cyc b.num.toNat (cyc * 1000000 * b.den) = b := by
  have hn : ((b.num.toNat : Nat) : Rat) = b.num := by
    exact_mod_cast Int.toNat_of_nonneg (Rat.num_nonneg.mpr hb.le)
  have hc' : (cyc : Rat) * 1000000 ≠ 0 := by positivity
  rw [baudOf]
  push_cast
  rw [hn, mul_div_mul_left _ _ hc', Rat.num_div_den]

end Sys2Proof.Config
end

section
/-! SUPPORT. The obligations of the family `00_scope.md`. -/

namespace Sys2Proof.Machine

open Sys2Proof.Config

/-- Settles O60: at the start of FEEDBACK SEQ is ready and uses no RXH, so the step is its emission. -/
theorem feedbackEmitsTheEvent : Obligations.FeedbackEmitsTheEvent := by
  unfold Obligations.FeedbackEmitsTheEvent
  intro s ev hr hl hp hf
  have hq : s.seqReady = true := by simp [State.seqReady, hl, hp]
  have hs : s.seqStep = .next s.emitFeedback := by simp only [State.seqStep, hp]
  rw [step_of_seqReady hr hq (by rw [hp]; rfl), hs, State.emitFeedback_some hf]
  rfl

/-- Settles O45, one part for each action of the stream-fault path. -/
theorem streamFaultHaltsTheBlock : Obligations.StreamFaultHaltsTheBlock := by
  unfold Obligations.StreamFaultHaltsTheBlock
  refine ⟨?read, ?fault, ?send, ?halt⟩
  case read =>
    intro s own kind ht hp hx
    have hx' : s.rxh = some (faultItem kind) := by cases kind <;> exact hx
    refine ⟨{ s with rxh := none, ph := .poll (.faulted kind own), free := s.free + 1 }, ?_, rfl⟩
    rw [step_of_turn_seq ht]
    simp only [State.seqStep, hp, State.pollRead_fault own hx']
  case fault =>
    intro s kind hr hl hp
    have hq : s.seqReady = true := by simp [State.seqReady, hl, hp]
    rw [step_of_seqReady hr hq (by rw [hp]; rfl)]
    simp only [State.seqStep, hp]
    rfl
  case send =>
    intro s b bs ht hp
    have hm := mem_sendPlaces.mpr (.inr (.inr rfl))
    rw [step_of_turn_seq ht, State.seqStep_sends hm hp]
    rfl
  case halt =>
    intro s hr hl hp
    have hq : s.seqReady = true := by simp [State.seqReady, hl, hp]
    rw [step_of_seqReady hr hq (by rw [hp]; rfl)]
    simp only [State.seqStep, hp]
    rfl

/-- Settles O32: the places that send are treated alike, and over every step the four movers are taken one by one. -/
theorem txSendLoadsOrHolds : Obligations.TxSendLoadsOrHolds := by
  unfold Obligations.TxSendLoadsOrHolds
  refine ⟨fun place hm s b bs hr hl hp => ⟨fun hx => ?loads, fun hx => ?holds⟩, fun s t h => ?every⟩
  case loads =>
    have hq : s.seqReady = true := by
      rw [State.seqReady_sends hm hp hl]
      simp [State.txEmpty, hx]
    rw [step_of_seqReady hr hq (by rw [hp]; exact usesRxh_sendPlaces hm _), State.seqStep_sends hm hp]
    rfl
  case holds =>
    obtain ⟨t, h⟩ := step_answers_next s
    exact ⟨t, h, step_holds_full_txh hm hp hr hl hx h⟩
  case every =>
    obtain ⟨-, hr, rfl⟩ | ⟨ht, -, hq, hs⟩ | ⟨-, -, -, rfl⟩ | ⟨ht, -, -, rfl⟩ := step_turns h
    · exact .inr (.inr (.inr ⟨.inl hr, rfl⟩))
    · obtain hx | ⟨place, hm, b, bs, hp, hx, rfl⟩ := (State.seqMove_of_seqStep hq hs).txh
      · exact .inl hx
      · refine .inr (.inl ⟨ht, State.running_of_seqReady hq, hx, b, bs, ?_, rfl, rfl⟩)
        obtain rfl | rfl | rfl := mem_sendPlaces.mp hm
        · exact .inl hp
        · exact .inr (.inl hp)
        · exact .inr (.inr hp)
    · obtain ⟨x, q, k, e⟩ := s.rxuStore_form
      exact .inl (by rw [e])
    · cases hn : s.env.nextRst with
      | true =>
        obtain ⟨e, he, hr⟩ := s.tick_of_high hn
        rw [he]
        exact .inr (.inr (.inr ⟨.inr hr, rfl⟩))
      | false =>
        obtain ⟨-, -, -, -, -, hx, -⟩ := s.tick_fields hn
        rw [hx]
        obtain h' | h' := s.txuTick_txh
        · exact .inl h'
        · exact .inr (.inr (.inl ⟨ht, h'⟩))

/-- Settles O56: SEQ's actions keep the balance with no time passing, and a tick counts at most itself. -/
theorem recordedDurationsHavePassed : Obligations.RecordedDurationsHavePassed := by
  unfold Obligations.RecordedDurationsHavePassed
  intro s t hs h
  rw [State.durationsElapsed_iff] at hs ⊢
  obtain ⟨-, rfl⟩ | ⟨-, hq, ha⟩ | ⟨-, -, rfl⟩ | ⟨-, -, rfl⟩ := step_cases h
  · exact (State.tickedOff_reset _ _).trans_le (Nat.zero_le _)
  · obtain ⟨-, hn, -⟩ := State.seqStep_keeps ha
    have := (State.seqMove_of_seqStep hq ha).tickedOff_le
    omega
  · obtain ⟨x, q, k, e⟩ := s.rxuStore_form
    rw [e]
    exact hs
  · cases hn : s.env.nextRst with
    | true =>
      obtain ⟨e, he, -⟩ := s.tick_of_high hn
      rw [he]
      exact (State.tickedOff_reset _ _).trans_le (Nat.zero_le _)
    | false =>
      obtain ⟨-, -, hp, -, -, -, -, -, hw, hc, htr, hnow, -⟩ := s.tick_fields hn
      obtain ⟨hk, hpt⟩ := s.seqTick_counts
      unfold State.tickedOff at hs ⊢
      rw [hp, hw, hc, htr, hnow, hpt]
      omega

/-- Settles O18: the clamp is idle, and rounding to a multiple of a ninth is off by at most four ninths. -/
theorem digitPositionIsNearest : Obligations.DigitPositionIsNearest := by
  unfold Obligations.DigitPositionIsNearest
  intro d s hle
  refine ⟨_, exec_eq_commit _ s, ?_⟩
  obtain ⟨hlo, hhi⟩ := s.latch.digitPosition_mem d (Int.ofNat_le.mpr hle)
  have hpw : (s.latch.bounded (s.latch.digitPosition d)).int =
      s.latch.min.int + ((d.val : Int) * (s.latch.max.int - s.latch.min.int) + 4) / 9 := by
    rw [Latch.bounded_int, clamp_of_mem hlo hhi, Latch.digitPosition_eq]
  rw [State.commit_latch, interpretInstr_digit]
  simp only [interpretDigit, Word.int] at hpw ⊢
  rw [hpw, abs_le]
  omega

/-- Settles O58: for the last clause the ticks in a clock cycle are `b`'s numerator. -/
theorem bitTimeIsOneOverBaud : Obligations.BitTimeIsOneOverBaud := by
  unfold Obligations.BitTimeIsOneOverBaud
  refine ⟨?above, ?time, rfl, Nat.mul_pos cyc_us_pos (by decide), ?every⟩
  case above =>
    rw [gt_iff_lt, BAUD, lt_baudOf_iff bit_ticks_pos]
    exact bitTicksOf_lt cyc_us_pos clk_ticks_pos _
  case time => exact baudOf_mul_bit CYC_US CLK_TICKS bit_ticks_pos
  case every =>
    intro cyc b hc hb
    have hb₀ : 0 < b := lt_trans (by norm_num) hb
    have hbit : 0 < cyc * 1000000 * b.den := Nat.mul_pos (by omega) b.den_pos
    have hbaud := baudOf_num_den cyc b hc hb₀
    have hlt := (lt_baudOf_iff (cyc := cyc) (clk := b.num.toNat) hbit).mp (by rw [hbaud]; exact hb)
    refine ⟨b.num.toNat, cyc * 1000000 * b.den - 1, ?_, by rw [bitTicksOf_surjective hbit hlt, hbaud]⟩
    have := Rat.num_pos.mpr hb₀
    omega

end Sys2Proof.Machine
end

section
/-! SUPPORT. What a command can do to the latch, said once (spec/10_state.md R25), and what every command keeps of it
(spec/10_state.md R24, spec/41_command_interpreter.md R89, R95). -/

namespace Sys2Proof

/-- The commands, the ten digits as one family (R52). -/
theorem Instr.cases_digit (i : Instr) :
    i = .dec ∨ i = .inc ∨ i = .ctr ∨ i = .rst ∨ i = .smin ∨ i = .smax ∨ (∃ d, i = .digit d) ∨ ∃ b, i = .inv b := by
  cases i
  case inv b => simp
  all_goals decide

end Sys2Proof

namespace Sys2Proof.Machine

/-- A command leaves the latch, moves PW within the bounds, moves one bound to PW, or restores the defaults (R25). -/
theorem interpretInstr_latch (i : Instr) (l : Latch) :
    (interpretInstr i l).1 = l ∨
    ((i = .dec ∨ i = .inc ∨ i = .ctr ∨ ∃ d, i = .digit d) ∧ ∃ v, (interpretInstr i l).1 = { l with pw := l.bounded v }) ∨
    (i = .smin ∧ (interpretInstr i l).1 = { l with min := l.pw }) ∨
    (i = .smax ∧ (interpretInstr i l).1 = { l with max := l.pw }) ∨
    (i = .rst ∧ (interpretInstr i l).1 = .defaults) := by
  obtain rfl | rfl | rfl | rfl | rfl | rfl | ⟨d, rfl⟩ | ⟨b, rfl⟩ := i.cases_digit
  · exact .inr (.inl ⟨.inl rfl, _, rfl⟩)
  · by_cases h : 65535 < l.pw.int + l.inc.int
    · exact .inl (by rw [interpretInstr, interpretInc_skipped l h])
    · exact .inr (.inl ⟨.inr (.inl rfl), _, by rw [interpretInstr, interpretInc_applied l (not_lt.mp h)]⟩)
  · exact .inr (.inl ⟨.inr (.inr (.inl rfl)), _, rfl⟩)
  · exact .inr (.inr (.inr (.inr ⟨rfl, rfl⟩)))
  · exact .inr (.inr (.inl ⟨rfl, rfl⟩))
  · exact .inr (.inr (.inr (.inl ⟨rfl, rfl⟩)))
  · exact .inr (.inl ⟨.inr (.inr (.inr ⟨d, rfl⟩)), _, by rw [interpretInstr_digit, interpretDigit]⟩)
  · exact .inl rfl

theorem Latch.defaults_inRange : Latch.defaults.InRange := by
  unfold Latch.InRange
  decide

/-- A candidate brought into an ordered range lies in it (R11). -/
theorem Latch.bounded_mem {l : Latch} (h : l.min.toNat ≤ l.max.toNat) (v : Int) :
    l.min.toNat ≤ (l.bounded v).toNat ∧ (l.bounded v).toNat ≤ l.max.toNat := by
  have hm := clamp_mem (v := v) (Int.ofNat_le.mpr h)
  rw [← Latch.bounded_int] at hm
  simp only [Word.int] at hm
  omega

/-- Every command keeps `MIN <= PW <= MAX` (R24, R95). -/
theorem interpretInstr_inRange (i : Instr) {l : Latch} (h : l.InRange) : (interpretInstr i l).1.InRange := by
  obtain e | ⟨-, v, e⟩ | ⟨-, e⟩ | ⟨-, e⟩ | ⟨-, e⟩ := interpretInstr_latch i l <;> rw [e]
  · exact h
  · exact Latch.bounded_mem (h.1.trans h.2) v
  · exact ⟨le_refl _, h.2⟩
  · exact ⟨h.1, le_refl _⟩
  · exact Latch.defaults_inRange

/-- Every command keeps INC and OVH at their defaults (R89). -/
theorem interpretInstr_constantsHeld (i : Instr) {l : Latch} (h : l.ConstantsHeld) :
    (interpretInstr i l).1.ConstantsHeld := by
  obtain e | ⟨-, v, e⟩ | ⟨-, e⟩ | ⟨-, e⟩ | ⟨-, e⟩ := interpretInstr_latch i l <;> rw [e]
  case inr.inr.inr.inr => exact ⟨rfl, rfl⟩
  all_goals exact h

end Sys2Proof.Machine
end

section
/-! SUPPORT. The cases of a step with SEQ's actions taken apart, and what SEQ's timers can do in a tick
(spec/10_state.md R34, spec/20_memory.md R44). -/

namespace Sys2Proof.Machine

/-- HOST's side after its tick depends on HOST's side alone. -/
theorem State.hostTick_env_congr {s t : State} (h : s.env = t.env) : s.hostTick.env = t.hostTick.env := by
  unfold State.hostTick
  rw [h]
  dsimp only
  split <;> rfl

/-- A tick moves HOST's side as HOST's own tick does, whether `rst` rises or not. -/
theorem State.tick_hostEnv (s : State) : s.tick.env = s.hostTick.env := by
  obtain ⟨p, w, c, h₁⟩ := s.seqTick_form
  obtain ⟨x, c', h₂⟩ := s.seqTick.txuTick_form
  obtain ⟨u, c'', q, h₃⟩ := s.seqTick.txuTick.rxuTick_form
  obtain ⟨u', k, h₅⟩ := (s.seqTick.txuTick.rxuTick.hostTick).rxuEdge_form s.env.rxd
  have he : s.seqTick.txuTick.rxuTick.hostTick.env = s.hostTick.env :=
    State.hostTick_env_congr (by rw [h₃, h₂, h₁])
  unfold State.tick
  dsimp only
  rw [h₅, ← he]
  split <;> rfl

/-- A tick under reset leaves the block at its reset values (R129). -/
theorem State.resetTick_eq (s : State) :
    s.resetTick = { State.reset with free := s.free, env := s.hostTick.env } := by
  obtain ⟨e, q, h⟩ := s.hostTick_form
  rw [State.resetTick, h]
  rfl

/-- The four cases of a step: `rst` is at 1 before or after it and the block is at its reset values; SEQ takes an action;
RXU stores an item; or a tick passes with `rst` at 0. -/
theorem step_moves {s t : State} (h : step s = .next t) :
    ((s.env.rst = true ∨ t.env.rst = true) ∧ ∃ e, t = { State.reset with free := s.free, env := e }) ∨
    (s.turn = .seq ∧ s.ls = .running ∧ s.seqStep = .next t ∧ s.SeqMove t) ∨
    (s.turn = .rxu ∧ s.rxDone ≠ [] ∧ t = s.rxuStore) ∨
    (s.turn = .clock ∧ s.seqReady = false ∧ s.env.nextRst = false ∧ t = s.tick) := by
  obtain ⟨-, hr, rfl⟩ | ⟨ht, -, hq, ha⟩ | ⟨ht, -, hd, e⟩ | ⟨ht, -, hq, rfl⟩ := step_turns h
  · exact .inl ⟨.inl hr, _, s.resetTick_eq⟩
  · exact .inr (.inl ⟨ht, State.running_of_seqReady hq, ha, State.seqMove_of_seqStep hq ha⟩)
  · exact .inr (.inr (.inl ⟨ht, hd, e⟩))
  · cases hn : s.env.nextRst with
    | true =>
      obtain ⟨e, he, hr⟩ := s.tick_of_high hn
      exact .inl ⟨.inr (by rw [he]; exact hr), e, he⟩
    | false => exact .inr (.inr (.inr ⟨ht, hq, rfl, rfl⟩))

/-- The places of SEQ whose own local counts time, before and after a tick (R133, R145). -/
inductive Phase.Elapses : Phase → Phase → Prop
  | holding (elapsed : Nat) : Elapses (.startup (.holding elapsed)) (.startup (.holding (elapsed + 1)))
  | nothing (own : Nat) : Elapses (.poll (.nothing own)) (.poll (.nothing (own - 1)))
  | faulted (kind : FaultKind) (own : Nat) : Elapses (.poll (.faulted kind own)) (.poll (.faulted kind (own - 1)))
  | dispatch (b : Byte) (own : Nat) : Elapses (.dispatch b own) (.dispatch b (own - 1))

/-- Such a tick leaves SEQ in its phase and its place in the loop, in no high phase, and with no more time left. -/
theorem Phase.Elapses.keeps {p q : Phase} (h : p.Elapses q) :
    q.name = p.name ∧ p.driving = false ∧ q.driving = false ∧ q.tracePlaces = p.tracePlaces ∧ q.ownLeft ≤ p.ownLeft := by
  cases h <;> exact ⟨rfl, rfl, rfl, rfl, by simp only [Phase.ownLeft]; omega⟩

/-- WAIT, STOPPED and the start of FEEDBACK are not among them. -/
theorem Phase.Elapses.ne {p q : Phase} (h : p.Elapses q) :
    (p ≠ .wait ∧ p ≠ .stopped ∧ p ≠ .feedback .emit) ∧ q ≠ .wait ∧ q ≠ .stopped ∧ q ≠ .feedback .emit := by
  cases h <;> simp

/-- The high phase and the read are not among them. -/
theorem Phase.Elapses.ne_high_read {p q : Phase} (h : p.Elapses q) :
    (∀ d, q ≠ .pulse (.high d)) ∧ ∀ own, q ≠ .poll (.read own) := by
  cases h <;> simp

/-- What a tick does to SEQ: nothing, or one of its two counters or the local of its place counts one tick (R34, R145). -/
theorem State.seqTick_cases (s : State) :
    s.seqTick = s ∨
    (s.ls = .running ∧ s.ph = .wait ∧ s.seqTick = { s with waitCtr := s.waitCtr + 1 }) ∨
    (s.ls = .running ∧ (∃ d, s.ph = .pulse (.high d)) ∧ s.seqTick = { s with pulseCtr := s.pulseCtr + 1 }) ∨
    ∃ p, s.ph.Elapses p ∧ s.seqTick = { s with ph := p } := by
  unfold State.seqTick
  split
  · exact .inl rfl
  · rename_i hl
    split <;> rename_i hp
    case h_1 elapsed => exact .inr (.inr (.inr ⟨_, hp ▸ .holding elapsed, rfl⟩))
    case h_2 => exact .inr (.inl ⟨hl, hp, rfl⟩)
    case h_3 own => exact .inr (.inr (.inr ⟨_, hp ▸ .nothing own, rfl⟩))
    case h_4 kind own => exact .inr (.inr (.inr ⟨_, hp ▸ .faulted kind own, rfl⟩))
    case h_5 b own => exact .inr (.inr (.inr ⟨_, hp ▸ .dispatch b own, rfl⟩))
    case h_6 d => exact .inr (.inr (.inl ⟨hl, ⟨d, hp⟩, rfl⟩))
    all_goals exact .inl rfl

/-- A tick leaves SEQ in its place, or counts the local of it. -/
theorem State.seqTick_ph (s : State) : s.seqTick.ph = s.ph ∨ s.ph.Elapses s.seqTick.ph := by
  obtain e | ⟨-, -, e⟩ | ⟨-, -, e⟩ | ⟨p, hp, e⟩ := s.seqTick_cases <;> rw [e]
  case inr.inr.inr => exact .inr hp
  all_goals exact .inl rfl

/-- A tick leaves the phase and the place in the loop, and the own time left does not grow. -/
theorem State.seqTick_keeps (s : State) :
    s.seqTick.ph.name = s.ph.name ∧ s.seqTick.ph.driving = s.ph.driving ∧ s.seqTick.ph.tracePlaces = s.ph.tracePlaces ∧
      s.seqTick.ph.ownLeft ≤ s.ph.ownLeft := by
  obtain e | h := s.seqTick_ph
  · rw [e]
    exact ⟨rfl, rfl, rfl, le_refl _⟩
  · obtain ⟨hn, hd, hd', ht, ho⟩ := h.keeps
    exact ⟨hn, hd'.trans hd.symm, ht, ho⟩

/-- A tick neither enters nor leaves STOPPED or the start of FEEDBACK. -/
theorem State.seqTick_ph_iff (s : State) :
    (s.seqTick.ph = .stopped ↔ s.ph = .stopped) ∧ (s.seqTick.ph = .feedback .emit ↔ s.ph = .feedback .emit) := by
  obtain e | h := s.seqTick_ph
  · rw [e]
    exact ⟨Iff.rfl, Iff.rfl⟩
  · obtain ⟨⟨-, hs, hf⟩, -, hs', hf'⟩ := h.ne
    exact ⟨iff_of_false hs' hs, iff_of_false hf' hf⟩

end Sys2Proof.Machine
end

section
/-! SUPPORT. What an action of SEQ does to each part of the state, by the list of its actions (`State.SeqMove`): the latch,
the registers, RXH, the counters, the event in hand and the trace. -/

namespace Sys2Proof.Machine

variable {s t : State}

/-- The poll leads to the read where RXH is full, and else past it (R106). -/
theorem State.pollSample_ph (s : State) :
    (s.rxAvail = true ∧ s.pollSample.ph = .poll (.read (Config.ownTime s.free))) ∨
    (s.rxAvail = false ∧ s.pollSample.ph = .poll (.nothing (Config.ownTime s.free))) := by
  unfold State.pollSample
  cases s.rxAvail <;> simp

/-- RXU's store of a completed item fills an empty RXH and leaves a full one (R65, R66). -/
theorem State.rxuStore_cons (s : State) {item : RxItem} {rest : List RxItem} (h : s.rxDone = item :: rest) :
    s.rxuStore = { s with rxDone := rest, rxh := some (s.rxh.getD item), free := s.free + 1 } := by
  simp only [State.rxuStore, h]

/-- RXU's store empties no RXH (R65). -/
theorem State.rxuStore_rxAvail (s : State) (h : s.rxAvail = true) : s.rxuStore.rxAvail = true := by
  unfold State.rxuStore
  split
  · exact h
  · rfl

/-- The places that send are in no high phase, and are neither WAIT nor STOPPED nor the start of FEEDBACK. -/
theorem ph_sendPlaces {place : List Byte → Phase} (hm : place ∈ sendPlaces) (bs : List Byte) :
    (place bs).driving = false ∧ place bs ≠ .wait ∧ place bs ≠ .stopped ∧ place bs ≠ .feedback .emit := by
  obtain rfl | rfl | rfl := mem_sendPlaces.mp hm <;> exact ⟨rfl, nofun, nofun, nofun⟩

/-- SEQ writes the latch only by dispatching a byte (R16, R108). -/
theorem State.SeqMove.latch (h : s.SeqMove t) :
    t.latch = s.latch ∨ ∃ b, s.ph = .dispatch b 0 ∧ t.latch = (interpret s.latch b).1 := by
  cases h
  case dispatches b hp => exact .inr ⟨b, hp, rfl⟩
  all_goals exact .inl rfl

/-- SEQ writes RXH only by emptying it in the read (R28, R107). -/
theorem State.SeqMove.rxh (h : s.SeqMove t) :
    t.rxh = s.rxh ∨ ((∃ own, s.ph = .poll (.read own)) ∧ s.rxh ≠ none ∧ t.rxh = none) := by
  cases h
  case readsByte own b hp hx => exact .inr ⟨⟨own, hp⟩, by simp [hx], rfl⟩
  case readsFault own kind hp hx => exact .inr ⟨⟨own, hp⟩, by simp [hx], rfl⟩
  all_goals exact .inl rfl

/-- SEQ halts only at the end of the stream-fault path (R103, R121). -/
theorem State.SeqMove.ls (h : s.SeqMove t) (hl : s.ls = .running) :
    (t.ls = .running ∧ t.ph ≠ .stopped) ∨ (s.ph = .poll (.faultSending []) ∧ t = s.halt) := by
  cases h
  case halts hp => exact .inr ⟨hp, rfl⟩
  case sends place b bs hm hp hx => exact .inl ⟨hl, (ph_sendPlaces hm bs).2.2.1⟩
  case polls => exact .inl ⟨hl, by obtain ⟨-, e⟩ | ⟨-, e⟩ := s.pollSample_ph <;> rw [e] <;> nofun⟩
  case startupEnds => exact .inl ⟨rfl, nofun⟩
  all_goals exact .inl ⟨hl, nofun⟩

/-- SEQ raises PWM_OUT where a high phase begins and lowers it where the phase ends (R31, R97). -/
theorem State.SeqMove.pwmOut (h : s.SeqMove t) (hs : s.pwmOut = s.ph.driving) : t.pwmOut = t.ph.driving := by
  cases h
  case sends place b bs hm hp hx =>
    rw [hp, (ph_sendPlaces hm _).1] at hs
    exact hs.trans (ph_sendPlaces hm bs).1.symm
  case polls hp =>
    rw [hp] at hs
    obtain ⟨-, e⟩ | ⟨-, e⟩ := s.pollSample_ph <;> rw [e] <;> exact hs
  case pulseBegins | pulseEnds => rfl
  case startupBegins hp | startupSent hp | startupEnds _ hp _ | waitEnds hp _ | findsNothing hp | readsByte _ _ hp _ |
      readsFault _ _ hp _ | faults _ hp | halts hp | dispatches _ hp | emits _ hp _ | emitsNothing hp _ | messageSent hp |
      pulseEmpty hp _ =>
    rw [hp] at hs
    exact hs

/-- PH moves by an action of SEQ only along the loop (R104, R121, R133). -/
theorem State.SeqMove.phaseName (h : s.SeqMove t) :
    t.ph.name = s.ph.name ∨
    (s.ph.name, t.ph.name) ∈
      ([(.STARTUP, .WAIT), (.WAIT, .POLL), (.POLL, .DISPATCH), (.POLL, .PULSE), (.POLL, .STOPPED),
        (.DISPATCH, .FEEDBACK), (.FEEDBACK, .PULSE), (.PULSE, .WAIT)] : List (PhaseName × PhaseName)) := by
  cases h
  case sends place b bs hm hp hx =>
    rw [hp]
    obtain rfl | rfl | rfl := mem_sendPlaces.mp hm <;> exact .inl rfl
  case polls hp =>
    rw [hp]
    obtain ⟨-, e⟩ | ⟨-, e⟩ := s.pollSample_ph <;> rw [e] <;> exact .inl rfl
  case startupBegins hp | startupSent hp | readsFault _ _ hp _ | faults _ hp | emits _ hp _ | pulseBegins hp _ =>
    rw [hp]
    exact .inl rfl
  case startupEnds _ hp _ | waitEnds hp _ | findsNothing hp | readsByte _ _ hp _ | halts hp | dispatches _ hp |
      emitsNothing hp _ | messageSent hp | pulseEmpty hp _ | pulseEnds _ hp _ =>
    rw [hp]
    exact .inr (by simp [Phase.name, State.toFeedback])

/-- A high phase is entered with the current DLY, which is not 0, and with nothing counted (R97, R101). -/
theorem State.SeqMove.high (h : s.SeqMove t) {d : Word} (ht : t.ph = .pulse (.high d)) :
    d = t.dly ∧ 0 < d.toNat ∧ t.pulseCtr = 0 := by
  cases h
  case sends place b bs hm hp hx => obtain rfl | rfl | rfl := mem_sendPlaces.mp hm <;> cases ht
  case polls => obtain ⟨-, e⟩ | ⟨-, e⟩ := s.pollSample_ph <;> rw [e] at ht <;> cases ht
  case pulseBegins hp hd =>
    cases ht
    exact ⟨rfl, by simpa [BitVec.lt_def] using hd, rfl⟩
  all_goals cases ht

/-- The read is entered only where an item is (R106, R107). -/
theorem State.SeqMove.read (h : s.SeqMove t) {own : Nat} (ht : t.ph = .poll (.read own)) : t.rxAvail = true := by
  cases h
  case sends place b bs hm hp hx => obtain rfl | rfl | rfl := mem_sendPlaces.mp hm <;> cases ht
  case polls =>
    obtain ⟨ha, -⟩ | ⟨-, e⟩ := s.pollSample_ph
    · exact ha
    · rw [e] at ht
      cases ht
  all_goals cases ht

/-- No command's event is a stream fault's (R78). -/
theorem isStreamFault_interpret (l : Latch) (b : Byte) : isStreamFault (interpret l b).2 = false := by
  cases h : (interpret l b).2
  case streamFault k => exact absurd h (interpretInstr_event _ l k)
  all_goals rfl

/-- Elsewhere than at the start of FEEDBACK no event is in hand (R109). -/
theorem State.EventPending.fb_eq_none (hs : s.EventPending) (hp : s.ph ≠ .feedback .emit) : s.fb = none := by
  simpa [Option.isSome_iff_ne_none] using fun h => hp (hs.1.mp h)

theorem State.EventPending.of_fb_eq_none (hf : s.fb = none) (hp : s.ph ≠ .feedback .emit) : s.EventPending :=
  ⟨iff_of_false (by simp [hf]) hp, by simp [hf]⟩

/-- An event comes into hand in DISPATCH and leaves it at the start of FEEDBACK (R108, R109). -/
theorem State.SeqMove.event (h : s.SeqMove t) (hs : s.EventPending) : t.EventPending := by
  cases h
  case dispatches b hp => exact ⟨iff_of_true rfl rfl, fun ev he => Option.some.inj he ▸ isStreamFault_interpret s.latch b⟩
  case emits => exact .of_fb_eq_none rfl nofun
  case emitsNothing hp hf => exact .of_fb_eq_none hf nofun
  case sends place b bs hm hp hx =>
    have hne (cs : List Byte) : place cs ≠ .feedback .emit := (ph_sendPlaces hm cs).2.2.2
    exact .of_fb_eq_none (hs.fb_eq_none (hp ▸ hne _)) (hne bs)
  case polls hp =>
    refine .of_fb_eq_none (hs.fb_eq_none (by rw [hp]; nofun)) ?_
    obtain ⟨-, e⟩ | ⟨-, e⟩ := s.pollSample_ph <;> rw [e] <;> nofun
  case startupBegins hp | startupSent hp | startupEnds _ hp _ | waitEnds hp _ | findsNothing hp | readsByte _ _ hp _ |
      readsFault _ _ hp _ | faults _ hp | halts hp | messageSent hp | pulseBegins hp _ | pulseEmpty hp _ |
      pulseEnds _ hp _ =>
    exact .of_fb_eq_none (hs.fb_eq_none (by rw [hp]; nofun)) nofun

/-- SEQ's actions record at most one event each, and with the event in hand as it should be that event is the loop's next
(R104, R112, R121). -/
theorem State.SeqMove.trace (h : s.SeqMove t) :
    ∃ es, t.trace = s.trace ++ es ∧ (s.EventPending → ∀ p ∈ s.ph.tracePlaces, ∃ q ∈ t.ph.tracePlaces,
      followTrace p es = some q) := by
  cases h
  case sends place b bs hm hp hx =>
    refine ⟨[.txByte b], rfl, fun _ => ?_⟩
    rw [hp]
    obtain rfl | rfl | rfl := mem_sendPlaces.mp hm <;> simp [Phase.tracePlaces, followTrace, TracePos.next]
  case polls hp =>
    refine ⟨[], (List.append_nil _).symm, fun _ => ?_⟩
    rw [hp]
    obtain ⟨-, e⟩ | ⟨-, e⟩ := s.pollSample_ph <;> rw [e] <;> simp [Phase.tracePlaces, followTrace]
  case waitEnds hp _ | faults _ hp | halts hp | pulseBegins hp _ | pulseEmpty hp _ =>
    refine ⟨[_], rfl, fun _ => ?_⟩
    rw [hp]
    simp [State.raiseStreamFault_eq, Phase.tracePlaces, followTrace, TracePos.next, isStreamFault]
  case emits ev hp hf =>
    refine ⟨[.feedback ev], rfl, fun hs => ?_⟩
    rw [hp]
    simp [Phase.tracePlaces, followTrace, TracePos.next, hs.2 ev hf]
  case startupBegins hp | startupSent hp | startupEnds _ hp _ | findsNothing hp | readsByte _ _ hp _ | readsFault _ _ hp _ |
      dispatches _ hp | emitsNothing hp _ | messageSent hp | pulseEnds _ hp _ =>
    refine ⟨[], (List.append_nil _).symm, fun _ => ?_⟩
    rw [hp]
    simp [State.toFeedback, Phase.tracePlaces, followTrace]

end Sys2Proof.Machine
end

section
/-! SUPPORT. The counters of each agent against what they count toward (spec/10_state.md R34), kept by SEQ's actions and by a
tick. -/

namespace Sys2Proof.Machine

open Sys2Proof.Config

/-- SEQ's own counters in bounds (R34, R145). -/
def State.SeqCounted (s : State) : Prop :=
  s.waitCtr ≤ T_WAIT_TICKS ∧ (s.ph ≠ .wait → s.waitCtr = 0) ∧ (s.ph.driving = false → s.pulseCtr = 0) ∧
    s.ph.ownLeft ≤ T_SEQ_MAX_TICKS

/-- TXU's counter in bounds (R34, R64). -/
def State.TxCounted (s : State) : Prop := s.txBitCtr < BIT_TICKS ∧ (s.txh = none → s.txBitCtr = 0)

/-- RXU's counter in bounds (R34, R65). -/
def State.RxCounted (s : State) : Prop :=
  s.rxBitCtr < BIT_TICKS ∧ ((s.rxu = .idle ∨ s.rxu = .heldLow) → s.rxBitCtr = 0)

/-- The counters are in bounds exactly when each agent's are. -/
theorem State.countersBounded_iff (s : State) : s.CountersBounded ↔ s.SeqCounted ∧ s.TxCounted ∧ s.RxCounted := by
  constructor
  · rintro ⟨hw, hw₀, hc₀, ht, ht₀, hr, hr₀, ho⟩
    exact ⟨⟨hw, hw₀, hc₀, ho⟩, ⟨ht, ht₀⟩, hr, hr₀⟩
  · rintro ⟨⟨hw, hw₀, hc₀, ho⟩, ⟨ht, ht₀⟩, hr, hr₀⟩
    exact ⟨hw, hw₀, hc₀, ht, ht₀, hr, hr₀, ho⟩

/-- After each action SEQ counts from 0 (R97, R104, R105). -/
theorem State.SeqMove.counters_zero {s t : State} (h : s.SeqMove t) (hs : s.SeqCounted) : t.waitCtr = 0 ∧ t.pulseCtr = 0 := by
  obtain ⟨-, hw, hc, -⟩ := hs
  cases h
  case sends place b bs hm hp hx =>
    obtain ⟨hd, hn, -, -⟩ := ph_sendPlaces hm (b :: bs)
    exact ⟨hw (hp ▸ hn), hc (hp ▸ hd)⟩
  case pulseBegins hp _ => exact ⟨hw (by rw [hp]; nofun), rfl⟩
  case pulseEnds => exact ⟨rfl, rfl⟩
  case startupEnds _ hp _ | waitEnds hp _ | pulseEmpty hp _ => exact ⟨rfl, hc (by rw [hp]; rfl)⟩
  case startupBegins hp | startupSent hp | polls hp | findsNothing hp | readsByte _ _ hp _ | readsFault _ _ hp _ |
      faults _ hp | halts hp | dispatches _ hp | emits _ hp _ | emitsNothing hp _ | messageSent hp =>
    rw [hp] at hw hc
    exact ⟨hw nofun, hc rfl⟩

/-- The own time left in an iteration is what was drawn at its poll (R145). -/
theorem State.SeqMove.ownLeft_le {s t : State} (h : s.SeqMove t) (hs : s.ph.ownLeft ≤ T_SEQ_MAX_TICKS) :
    t.ph.ownLeft ≤ T_SEQ_MAX_TICKS := by
  cases h
  case sends place b bs hm hp hx => obtain rfl | rfl | rfl := mem_sendPlaces.mp hm <;> exact Nat.zero_le _
  case polls => obtain ⟨-, e⟩ | ⟨-, e⟩ := s.pollSample_ph <;> rw [e] <;> exact ownTime_le _
  case readsByte _ _ hp _ | readsFault _ _ hp _ =>
    rw [hp] at hs
    exact hs
  all_goals exact Nat.zero_le _

theorem State.SeqMove.seqCounted {s t : State} (h : s.SeqMove t) (hs : s.SeqCounted) : t.SeqCounted := by
  obtain ⟨hw, hc⟩ := h.counters_zero hs
  exact ⟨hw ▸ Nat.zero_le _, fun _ => hw, fun _ => hc, h.ownLeft_le hs.2.2.2⟩

theorem State.SeqMove.txCounted {s t : State} (h : s.SeqMove t) (hs : s.TxCounted) : t.TxCounted := by
  cases h
  case sends => exact ⟨bit_ticks_pos, nofun⟩
  all_goals exact hs

/-- Where SEQ cannot act, a tick leaves its counters in bounds: the wait that has not run has a tick to go (R105). -/
theorem State.seqTick_seqCounted {s : State} (hq : s.seqReady = false) (hs : s.SeqCounted) : s.seqTick.SeqCounted := by
  obtain ⟨hw, hw₀, hc₀, ho⟩ := hs
  obtain e | ⟨hl, hp, e⟩ | ⟨hl, ⟨d, hp⟩, e⟩ | ⟨p, hp, e⟩ := s.seqTick_cases <;> rw [e]
  · exact ⟨hw, hw₀, hc₀, ho⟩
  · have hlt : ¬ T_WAIT_TICKS ≤ s.waitCtr := by rw [← State.seqReady_wait hl hp, hq]; nofun
    exact ⟨by simp only; omega, fun hn => absurd hp hn, hc₀, ho⟩
  · exact ⟨hw, hw₀, fun hn => by simp [hp, Phase.driving] at hn, ho⟩
  · obtain ⟨-, hd, -, -, ho'⟩ := hp.keeps
    obtain ⟨⟨hwait, -, -⟩, -⟩ := hp.ne
    exact ⟨hw, fun _ => hw₀ hwait, fun _ => hc₀ hd, ho'.trans ho⟩

/-- Where SEQ cannot act, a tick of a high phase leaves it no longer than its DLY (R97). -/
theorem State.seqTick_high {s : State} {d : Word} (hq : s.seqReady = false) (hs : s.PulseInTime)
    (ht : s.seqTick.ph = .pulse (.high d)) :
    d = s.dly ∧ 0 < d.toNat ∧ s.seqTick.pulseCtr ≤ d.toNat * US_TICKS := by
  obtain e | ⟨-, -, e⟩ | ⟨hl, -, e⟩ | ⟨p, hp, e⟩ := s.seqTick_cases <;> rw [e] at ht ⊢
  · exact hs d ht
  · exact hs d ht
  · obtain ⟨hd, hpos, -⟩ := hs d ht
    have hlt : ¬ d.toNat * US_TICKS ≤ s.pulseCtr := by rw [← State.seqReady_high hl ht, hq]; nofun
    exact ⟨hd, hpos, by simp only; omega⟩
  · exact absurd ht (hp.ne_high_read.1 d)

theorem State.txuTick_txCounted {s : State} (hs : s.TxCounted) : s.txuTick.TxCounted := by
  refine ⟨(s.txuTick_remaining hs.1).2, ?_⟩
  unfold State.txuTick
  split
  · exact hs.2
  · rename_i hx
    split
    · intro hn
      rw [hx] at hn
      cases hn
    · split <;> exact fun _ => rfl

theorem State.rxuTick_rxCounted {s : State} (hs : s.RxCounted) : s.rxuTick.RxCounted := by
  unfold State.rxuTick
  split
  case h_1 => exact hs
  case h_2 hu =>
    split
    · exact ⟨hs.1, fun _ => hs.2 (.inr hu)⟩
    · exact hs
  case h_3 d i hu =>
    split
    case isTrue hb => exact ⟨hb, by simp [hu]⟩
    case isFalse => split <;> exact ⟨bit_ticks_pos, fun _ => rfl⟩

theorem State.rxuEdge_rxCounted {s : State} (v : Bool) (hs : s.RxCounted) : (s.rxuEdge v).RxCounted := by
  unfold State.rxuEdge
  split
  · split
    · exact ⟨bit_ticks_pos, fun _ => rfl⟩
    · exact hs
  · exact hs
  · exact hs

/-- A tick keeps RXU's counter in bounds. -/
theorem State.tick_rxCounted {s : State} (hn : s.env.nextRst = false) (hs : s.RxCounted) : s.tick.RxCounted := by
  obtain ⟨p, w, c, h₁⟩ := s.seqTick_form
  obtain ⟨x, c', h₂⟩ := s.seqTick.txuTick_form
  have hr : s.seqTick.txuTick.rxuTick.RxCounted := State.rxuTick_rxCounted (by rw [h₂, h₁]; exact hs)
  obtain ⟨e, q, h₄⟩ := s.seqTick.txuTick.rxuTick.hostTick_form
  have hh : s.seqTick.txuTick.rxuTick.hostTick.RxCounted := by rw [h₄]; exact hr
  rw [s.tick_of_low hn]
  exact State.rxuEdge_rxCounted s.env.rxd hh

end Sys2Proof.Machine
end

section
/-! SUPPORT. What every step keeps, one clause of the invariant at a time (spec/10_state.md R24 to R34, `State.Inv`). -/

namespace Sys2Proof.Machine

open Sys2Proof.Config

/-- HOST's level on `rxd` stays the one it is driving (R68). -/
theorem step_lineDriven {s t : State} (h : step s = .next t) (hs : s.LineDriven) : t.LineDriven := by
  unfold State.LineDriven
  obtain ⟨-, rfl⟩ | ⟨-, -, ha⟩ | ⟨-, -, rfl⟩ | ⟨-, -, rfl⟩ := step_cases h
  · exact s.hostTick_line hs
  · rw [(State.seqStep_keeps ha).1]
    exact hs
  · obtain ⟨x, q, k, e⟩ := s.rxuStore_form
    rw [e]
    exact hs
  · rw [s.tick_hostEnv]
    exact s.hostTick_line hs

/-- Following a trace is following its first part and then the rest. -/
theorem followTrace_append (p : TracePos) (es es' : List Event) :
    followTrace p (es ++ es') = (followTrace p es).bind (followTrace · es') := by
  induction es generalizing p with
  | nil => rfl
  | cons e es ih =>
    simp only [List.cons_append, followTrace]
    cases p.next e with
    | none => rfl
    | some q => exact ih q

/-- An action of SEQ keeps the trace a run of the loop (R104). -/
theorem State.SeqMove.traceFollowsLoop {s t : State} (h : s.SeqMove t) (hs : s.TraceFollowsLoop) (he : s.EventPending) :
    t.TraceFollowsLoop := by
  obtain ⟨p, hp, hm⟩ := hs
  obtain ⟨es, htr, hes⟩ := h.trace
  obtain ⟨q, hq, hpq⟩ := hes he p hm
  exact ⟨q, by rw [htr, followTrace_append, hp]; exact hpq, hq⟩

/-- The latch is written by the decoder in DISPATCH and by power-on reset alone (R16). -/
theorem step_latch {s t : State} (h : step s = .next t) :
    t.latch = s.latch ∨
    (∃ b, s.ls = .running ∧ s.ph = .dispatch b 0 ∧ t.latch = (interpret s.latch b).1) ∨
    ((s.env.rst = true ∨ t.env.rst = true) ∧ t.latch = .defaults) := by
  obtain ⟨hr, e, rfl⟩ | ⟨-, hl, -, hm⟩ | ⟨-, -, rfl⟩ | ⟨-, -, hn, rfl⟩ := step_moves h
  · exact .inr (.inr ⟨hr, rfl⟩)
  · obtain e | ⟨b, hp, e⟩ := hm.latch
    · exact .inl e
    · exact .inr (.inl ⟨b, hl, hp, e⟩)
  · obtain ⟨x, q, k, e⟩ := s.rxuStore_form
    exact .inl (by rw [e])
  · exact .inl (s.tick_fields hn).1

/-- Every step keeps `MIN <= PW <= MAX` (R24). -/
theorem step_inRange {s t : State} (h : step s = .next t) (hs : s.latch.InRange) : t.latch.InRange := by
  obtain e | ⟨b, -, -, e⟩ | ⟨-, e⟩ := step_latch h <;> rw [e]
  · exact hs
  · exact interpretInstr_inRange _ hs
  · exact Latch.defaults_inRange

/-- Every step keeps INC and OVH at their defaults (R89). -/
theorem step_constantsHeld {s t : State} (h : step s = .next t) (hs : s.latch.ConstantsHeld) : t.latch.ConstantsHeld := by
  obtain e | ⟨b, -, -, e⟩ | ⟨-, e⟩ := step_latch h <;> rw [e]
  · exact hs
  · exact interpretInstr_constantsHeld _ hs
  · exact ⟨rfl, rfl⟩

/-- Every step keeps LS, PH and PWM_OUT in agreement (R27, R31). -/
theorem step_registersAgree {s t : State} (h : step s = .next t) (hs : s.RegistersAgree) : t.RegistersAgree := by
  obtain ⟨hst, hpwm⟩ := hs
  obtain ⟨-, e, rfl⟩ | ⟨-, hl, -, hm⟩ | ⟨-, -, rfl⟩ | ⟨-, -, hn, rfl⟩ := step_moves h
  · exact ⟨iff_of_false nofun nofun, rfl⟩
  · refine ⟨?_, hm.pwmOut hpwm⟩
    obtain ⟨hl', hp⟩ | ⟨-, rfl⟩ := hm.ls hl
    · exact iff_of_false (by rw [hl']; nofun) hp
    · exact iff_of_true rfl rfl
  · obtain ⟨x, q, k, e⟩ := s.rxuStore_form
    rw [e]
    exact ⟨hst, hpwm⟩
  · obtain ⟨-, hl, hp, -, -, -, -, ho, -⟩ := s.tick_fields hn
    exact ⟨by rw [hl, hp, s.seqTick_ph_iff.1, hst], by rw [ho, hp, s.seqTick_keeps.2.1, hpwm]⟩

/-- Every step keeps a high phase that of the current DLY, and no longer (R23, R97). -/
theorem step_pulseInTime {s t : State} (h : step s = .next t) (hs : s.PulseInTime) : t.PulseInTime := by
  intro d hd
  obtain ⟨-, e, rfl⟩ | ⟨-, -, -, hm⟩ | ⟨-, -, rfl⟩ | ⟨-, hq, hn, rfl⟩ := step_moves h
  · cases hd
  · obtain ⟨hdly, hpos, hc⟩ := hm.high hd
    exact ⟨hdly, hpos, hc ▸ Nat.zero_le _⟩
  · obtain ⟨x, q, k, e⟩ := s.rxuStore_form
    rw [e] at hd ⊢
    exact hs d hd
  · obtain ⟨hl, -, hp, -, -, -, -, -, -, hc, -⟩ := s.tick_fields hn
    rw [hp] at hd
    rw [State.dly, hl, hc]
    exact State.seqTick_high hq hs hd

/-- Every step keeps the counters in bounds (R34). -/
theorem step_countersBounded {s t : State} (h : step s = .next t) (hs : s.CountersBounded) : t.CountersBounded := by
  rw [State.countersBounded_iff] at hs ⊢
  obtain ⟨hseq, htx, hrx⟩ := hs
  obtain ⟨-, e, rfl⟩ | ⟨-, -, ha, hm⟩ | ⟨-, -, rfl⟩ | ⟨-, hq, hn, rfl⟩ := step_moves h
  · exact ⟨⟨Nat.zero_le _, fun _ => rfl, fun _ => rfl, Nat.zero_le _⟩, ⟨bit_ticks_pos, fun _ => rfl⟩, bit_ticks_pos,
      fun _ => rfl⟩
  · obtain ⟨-, -, hu, hc, -⟩ := State.seqStep_keeps ha
    exact ⟨hm.seqCounted hseq, hm.txCounted htx, by rw [State.RxCounted, hu, hc]; exact hrx⟩
  · obtain ⟨x, q, k, e⟩ := s.rxuStore_form
    rw [e]
    exact ⟨hseq, htx, hrx⟩
  · obtain ⟨-, -, hp, -, -, hx, hb, -, hw, hc, -⟩ := s.tick_fields hn
    refine ⟨?_, ?_, State.tick_rxCounted hn hrx⟩
    · rw [State.SeqCounted, hp, hw, hc]
      exact State.seqTick_seqCounted hq hseq
    · rw [State.TxCounted, hx, hb]
      exact State.txuTick_txCounted htx

/-- Every step keeps an event in hand exactly at the start of FEEDBACK (R109). -/
theorem step_eventPending {s t : State} (h : step s = .next t) (hs : s.EventPending) : t.EventPending := by
  obtain ⟨-, e, rfl⟩ | ⟨-, -, -, hm⟩ | ⟨-, -, rfl⟩ | ⟨-, -, hn, rfl⟩ := step_moves h
  · exact .of_fb_eq_none rfl nofun
  · exact hm.event hs
  · obtain ⟨x, q, k, e⟩ := s.rxuStore_form
    rw [e]
    exact hs
  · obtain ⟨-, -, hp, hf, -⟩ := s.tick_fields hn
    rw [State.EventPending, hp, hf, s.seqTick_ph_iff.2]
    exact hs

/-- Every step keeps the trace a run of the loop, standing where PH says (R33, R104). -/
theorem step_traceFollowsLoop {s t : State} (h : step s = .next t) (hs : s.TraceFollowsLoop) (he : s.EventPending) :
    t.TraceFollowsLoop := by
  obtain ⟨-, e, rfl⟩ | ⟨-, -, -, hm⟩ | ⟨-, -, rfl⟩ | ⟨-, -, hn, rfl⟩ := step_moves h
  · exact ⟨.startup, rfl, List.mem_singleton.mpr rfl⟩
  · exact hm.traceFollowsLoop hs he
  · obtain ⟨x, q, k, e⟩ := s.rxuStore_form
    rw [e]
    exact hs
  · obtain ⟨-, -, hp, -, -, -, -, -, -, -, htr, -⟩ := s.tick_fields hn
    rw [State.TraceFollowsLoop, hp, htr, s.seqTick_keeps.2.2.1]
    exact hs

/-- Every step keeps an item where SEQ is to read (R107). -/
theorem step_readHasItem {s t : State} (h : step s = .next t) (hs : s.ReadHasItem) : t.ReadHasItem := by
  intro own ht
  obtain ⟨-, e, rfl⟩ | ⟨-, -, -, hm⟩ | ⟨-, -, rfl⟩ | ⟨-, -, hn, rfl⟩ := step_moves h
  · cases ht
  · exact hm.read ht
  · obtain ⟨x, q, k, e⟩ := s.rxuStore_form
    have hp : s.ph = .poll (.read own) := by rwa [e] at ht
    exact s.rxuStore_rxAvail (hs own hp)
  · obtain ⟨-, -, hp, -, hx, -⟩ := s.tick_fields hn
    rw [State.rxAvail, hx]
    obtain e | he := s.seqTick_ph
    · exact hs own (e.symm.trans (hp.symm.trans ht))
    · exact absurd (hp.symm.trans ht) (he.ne_high_read.2 own)

end Sys2Proof.Machine
end

section
/-! SUPPORT. The obligations of the family `10_state.md`. -/

namespace Sys2Proof.Machine

/-- Settles O57: each clause is kept by every step; only the trace needs a second clause, the event in hand. -/
theorem stepsKeepTheInvariant : Obligations.StepsKeepTheInvariant := by
  unfold Obligations.StepsKeepTheInvariant
  exact fun s t hs h =>
    { inRange := step_inRange h hs.inRange
      constants := step_constantsHeld h hs.constants
      registers := step_registersAgree h hs.registers
      pulse := step_pulseInTime h hs.pulse
      counters := step_countersBounded h hs.counters
      event := step_eventPending h hs.event
      trace := step_traceFollowsLoop h hs.trace hs.event
      durations := recordedDurationsHavePassed s t hs.durations h
      line := step_lineDriven h hs.line
      read := step_readHasItem h hs.read }

/-- Settles O22, from the four ways a command can change the latch. -/
theorem eachRegisterHasItsWriters : Obligations.EachRegisterHasItsWriters := by
  unfold Obligations.EachRegisterHasItsWriters
  intro i s
  refine ⟨_, exec_eq_commit i s, ?_⟩
  rw [State.commit_latch]
  obtain e | ⟨hi, v, e⟩ | ⟨rfl, e⟩ | ⟨rfl, e⟩ | ⟨rfl, e⟩ := interpretInstr_latch i s.latch <;> rw [e]
  · simp
  · simp only [ne_eq, not_true_eq_false, false_imp_iff, and_true]
    rintro -
    obtain h | h | h | h := hi <;> simp [h]
  · simp
  · simp
  · simp [Latch.defaults, Config.INC_DEFAULT, Config.OVH_DEFAULT]

/-- Settles O28. -/
theorem onlyDispatchAndResetWriteTheLatch : Obligations.OnlyDispatchAndResetWriteTheLatch := by
  unfold Obligations.OnlyDispatchAndResetWriteTheLatch
  exact fun s t h => step_latch h

/-- Settles O30: SEQ's actions follow the loop, and RXU's store and a tick leave the phase. -/
theorem phasesFollowTheLoop : Obligations.PhasesFollowTheLoop := by
  unfold Obligations.PhasesFollowTheLoop
  intro s t h hs ht
  obtain ⟨hr, -⟩ | ⟨-, -, -, hm⟩ | ⟨-, -, rfl⟩ | ⟨-, -, hn, rfl⟩ := step_moves h
  · simp [hs, ht] at hr
  · exact hm.phaseName
  · obtain ⟨x, q, k, e⟩ := s.rxuStore_form
    exact .inl (by rw [e])
  · obtain ⟨-, -, hp, -⟩ := s.tick_fields hn
    exact .inl (by rw [hp, s.seqTick_keeps.1])

/-- Settles O34: the store by what RXH holds, and over every step the four movers are taken one by one. -/
theorem overrunKeepsTheOlderItem : Obligations.OverrunKeepsTheOlderItem := by
  unfold Obligations.OverrunKeepsTheOlderItem
  refine ⟨fun s item rest ht hd => ?store, fun s t h => ?every⟩
  case store =>
    refine ⟨s.rxuStore, by simp only [step, ht], fun hx => ?_, fun hx => ?_⟩ <;> rw [s.rxuStore_cons hd]
    · simp [hx]
    · obtain ⟨x, hx⟩ := Option.ne_none_iff_exists'.mp hx
      simp [hx]
  case every =>
    obtain ⟨hr, e, rfl⟩ | ⟨ht, hl, -, hm⟩ | ⟨ht, hd, rfl⟩ | ⟨-, -, hn, rfl⟩ := step_moves h
    · exact .inr (.inr (.inr ⟨hr, rfl⟩))
    · obtain hx | hx := hm.rxh
      · exact .inl hx
      · exact .inr (.inr (.inl ⟨ht, hl, hx⟩))
    · obtain ⟨item, rest, hd⟩ := List.exists_cons_of_ne_nil hd
      rw [s.rxuStore_cons hd]
      cases hx : s.rxh with
      | some x => exact .inl rfl
      | none => exact .inr (.inl ⟨ht, rfl, item, rest, hd, rfl, rfl⟩)
    · obtain ⟨-, -, -, -, hx, -⟩ := s.tick_fields hn
      exact .inl hx

/-- Settles O43. -/
theorem pwmIsHighOnlyInAPulse : Obligations.PwmIsHighOnlyInAPulse := by
  unfold Obligations.PwmIsHighOnlyInAPulse
  exact fun s t hs h => step_registersAgree h hs

/-- Settles O46: of all the moves, only the end of the stream-fault path writes HALTED to LS. -/
theorem onlyAStreamFaultHalts : Obligations.OnlyAStreamFaultHalts := by
  unfold Obligations.OnlyAStreamFaultHalts
  intro s t h hl ht
  obtain ⟨-, e, rfl⟩ | ⟨-, -, -, hm⟩ | ⟨-, -, rfl⟩ | ⟨-, -, hn, rfl⟩ := step_moves h
  · cases ht
  · obtain ⟨hl', -⟩ | ⟨hp, rfl⟩ := hm.ls hl
    · rw [hl'] at ht
      cases ht
    · exact ⟨hp, rfl⟩
  · obtain ⟨x, q, k, e⟩ := s.rxuStore_form
    rw [e, hl] at ht
    cases ht
  · obtain ⟨-, hl', -⟩ := s.tick_fields hn
    rw [hl', hl] at ht
    cases ht

/-- Settles O49: SEQ's actions append to the trace, and RXU's store and a tick leave it. -/
theorem traceIsAppendOnly : Obligations.TraceIsAppendOnly := by
  unfold Obligations.TraceIsAppendOnly
  intro s t h hs ht
  obtain ⟨hr, -⟩ | ⟨-, -, -, hm⟩ | ⟨-, -, rfl⟩ | ⟨-, -, hn, rfl⟩ := step_moves h
  · simp [hs, ht] at hr
  · obtain ⟨es, htr, -⟩ := hm.trace
    exact ⟨es, htr.symm⟩
  · obtain ⟨x, q, k, e⟩ := s.rxuStore_form
    rw [e]
  · obtain ⟨-, -, -, -, -, -, -, -, -, -, htr, -⟩ := s.tick_fields hn
    rw [htr]

/-- Settles O1: `State.reset` and the DLY of its latch, evaluated. -/
theorem resetStateIsTheSpecs : Obligations.ResetStateIsTheSpecs := by
  unfold Obligations.ResetStateIsTheSpecs
  decide

/-- Settles O2, clause by clause: nothing is counted, recorded or in hand. -/
theorem resetMeetsInvariant : Obligations.ResetMeetsInvariant := by
  unfold Obligations.ResetMeetsInvariant
  exact
    { inRange := Latch.defaults_inRange
      constants := ⟨rfl, rfl⟩
      registers := ⟨iff_of_false nofun nofun, rfl⟩
      pulse := nofun
      counters := ⟨Nat.zero_le _, fun _ => rfl, fun _ => rfl, Config.bit_ticks_pos, fun _ => rfl, Config.bit_ticks_pos,
        fun _ => rfl, Nat.zero_le _⟩
      event := .of_fb_eq_none rfl nofun
      trace := ⟨.startup, rfl, List.mem_singleton.mpr rfl⟩
      durations := (State.tickedOff_reset 0 .start).trans_le (Nat.zero_le _)
      line := rfl
      read := nofun }

/-- Settles O25, from DLY as a difference of naturals. -/
theorem dlyIsPwLessOverhead : Obligations.DlyIsPwLessOverhead := by
  unfold Obligations.DlyIsPwLessOverhead
  refine ⟨fun s => ?_, by decide⟩
  have hpw := s.latch.pw.isLt
  rw [State.dly, Latch.dly_toNat]
  refine ⟨by split <;> omega, by omega, fun ho => ?_⟩
  rw [ho]
  simp only [BitVec.reduceToNat]
  omega

end Sys2Proof.Machine
end

section
/-! SUPPORT. The obligations of the family `20_memory.md`: the order of RXU's store and SEQ's use of RXH in one clock cycle
(spec/20_memory.md R45, R46, log entry 3). -/

namespace Sys2Proof.Machine

/-- Where SEQ is ready to use RXH and an item waits, a free value alone says which of the two goes first (R46). -/
theorem State.turn_usesRxh {s : State} (hr : s.env.rst = false) (hq : s.seqReady = true) (hu : s.ph.usesRxh = true)
    (hd : s.rxDone ≠ []) : s.turn = if Config.rxuFirst s.free then .rxu else .seq := by
  simp [State.turn, hr, hq, hu, hd]

theorem step_of_turn_rxu {s : State} (h : s.turn = .rxu) : step s = .next s.rxuStore := by
  simp only [step, h]

/-- Settles O41: the free value is taken at both its values, the store before the poll and the poll before the store. -/
theorem pollRaceLosesNoItem : Obligations.PollRaceLosesNoItem := by
  unfold Obligations.PollRaceLosesNoItem
  intro s item hr hl hp hx hd
  have hq : s.seqReady = true := by simp [State.seqReady, hl, hp]
  have ht := State.turn_usesRxh hr hq (by rw [hp]; rfl) (by simp [hd])
  cases hf : Config.rxuFirst s.free
  case true =>
    refine ⟨_, step_of_turn_rxu (by simp [ht, hf]), .inl ?_⟩
    rw [s.rxuStore_cons hd]
    simp [hp, hx]
  case false =>
    have hs : step s = .next s.pollSample := by
      rw [step_of_turn_seq (by simp [ht, hf])]
      simp only [State.seqStep, hp]
    obtain ⟨ha, -⟩ | ⟨-, hph⟩ := s.pollSample_ph
    · simp [State.rxAvail, hx] at ha
    · exact ⟨_, hs, .inr ⟨_, hph, hx, hd⟩⟩

end Sys2Proof.Machine
end

section
/-! SUPPORT. The decoder and the encoder as inverses of each other (spec/30_encoding.md R50 to R55). -/

namespace Sys2Proof

/-- Decoding the byte of a well-formed command gives the command: the fixed bytes row by row, and an invalid byte because
it is no command byte (R52, R54). -/
theorem decodeByte_encodeByte {i : Instr} (h : i.wellFormed = true) : decodeByte (encodeByte i) = i := by
  cases i
  case inv b => exact decodeByte_invalid b (by simpa only [Instr.wellFormed, Bool.not_eq_true'] using h)
  all_goals decide

/-- Each of the sixteen command bytes has a well-formed command, other than `INV`, whose byte it is (R52). -/
theorem decodeByte_of_mem_commandBytes :
    ∀ b ∈ commandBytes, decodeByte b ≠ .inv b ∧ (decodeByte b).wellFormed = true ∧ encodeByte (decodeByte b) = b := by
  decide

/-- A byte is invalid exactly when it is none of the sixteen (R54). -/
theorem decodeByte_eq_inv_iff (b : Byte) : decodeByte b = .inv b ↔ b ∉ commandBytes := by
  refine ⟨fun h hm => (decodeByte_of_mem_commandBytes b hm).1 h, fun h => decodeByte_invalid b ?_⟩
  simpa using h

/-- The command of a byte is well formed, and its byte is that byte (R53, R55). -/
theorem decodeByte_spec (b : Byte) : (decodeByte b).wellFormed = true ∧ encodeByte (decodeByte b) = b := by
  by_cases h : b ∈ commandBytes
  · exact (decodeByte_of_mem_commandBytes b h).2
  · rw [(decodeByte_eq_inv_iff b).mpr h]
    exact ⟨by simpa [Instr.wellFormed] using h, rfl⟩

/-- The complement of the sixteen command bytes, as ranges (R54). -/
theorem not_mem_commandBytes_iff (b : Byte) : b ∉ commandBytes ↔
    b.toNat ≤ 0x0C ∨ (0x0E ≤ b.toNat ∧ b.toNat ≤ 0x1F) ∨ (0x21 ≤ b.toNat ∧ b.toNat ≤ 0x2B) ∨ b = 0x2D ∨ b = 0x2F ∨
      b = 0x3A ∨ b = 0x3B ∨ b = 0x3D ∨ 0x3F ≤ b.toNat := by
  simp only [commandBytes, List.mem_cons, List.not_mem_nil, or_false, ← BitVec.toNat_inj, BitVec.reduceToNat]
  omega

/-- Sixteen of the 256 byte values are command bytes (R52). -/
theorem length_filter_mem_commandBytes :
    ((List.range 256).filter (fun n => decide (BitVec.ofNat 8 n ∈ commandBytes))).length = 16 := by
  have hp : ((List.range 256).filter (fun n => decide (BitVec.ofNat 8 n ∈ commandBytes))).Perm
      (commandBytes.map BitVec.toNat) := by
    refine (List.perm_ext_iff_of_nodup (List.nodup_range.filter _) (by decide)).mpr fun n => ?_
    rw [List.mem_filter, List.mem_range, decide_eq_true_iff, List.mem_map]
    constructor
    · rintro ⟨hn, hm⟩
      exact ⟨_, hm, Nat.mod_eq_of_lt hn⟩
    · rintro ⟨b, hm, rfl⟩
      exact ⟨b.isLt, by rwa [BitVec.ofNat_toNat, BitVec.setWidth_eq]⟩
  exact hp.length_eq

end Sys2Proof

namespace Sys2Proof.Machine

/-- Settles O8: a command is one byte, and decoding that byte gives the command. -/
theorem decodeReadsEncodedInstructionBack : Obligations.DecodeReadsEncodedInstructionBack := by
  unfold Obligations.DecodeReadsEncodedInstructionBack
  intro i rest h
  rw [encode, List.singleton_append, decode_cons, decodeByte_encodeByte h]

/-- Settles O6: the invalid bytes are the complement of the sixteen command bytes, so their ranges and their number,
256 - 16, are that complement's. -/
theorem invalidClassIsTheListedRanges : Obligations.InvalidClassIsTheListedRanges := by
  unfold Obligations.InvalidClassIsTheListedRanges
  refine ⟨fun b => (decodeByte_eq_inv_iff b).trans (not_mem_commandBytes_iff b), ?_,
    fun b s => ⟨_, exec_eq_commit _ s, rfl, rfl⟩⟩
  have hsum := List.length_eq_length_filter_add (l := List.range 256) (fun n => decide (BitVec.ofNat 8 n ∈ commandBytes))
  rw [List.length_range, length_filter_mem_commandBytes] at hsum
  simp only [decodeByte_eq_inv_iff, decide_not]
  omega

/-- Settles O7: another well-formed command with the same byte would decode from it too. -/
theorem everyByteIsOneCommand : Obligations.EveryByteIsOneCommand := by
  unfold Obligations.EveryByteIsOneCommand
  intro b rest
  obtain ⟨hw, he⟩ := decodeByte_spec b
  refine ⟨decodeByte b, decode_cons b rest, hw, by rw [encode, he], fun j hj h => ?_⟩
  obtain rfl : encodeByte j = b := List.singleton_inj.mp h
  exact (decodeByte_encodeByte hj).symm

/-- Settles O5: the sixteen rows by evaluation, and every other byte as the complement. -/
theorem commandBytesDecodeAsInTheTable : Obligations.CommandBytesDecodeAsInTheTable := by
  unfold Obligations.CommandBytesDecodeAsInTheTable
  refine ⟨rfl, rfl, rfl, rfl, rfl, rfl, rfl, rfl, rfl, rfl, rfl, rfl, rfl, rfl, rfl, rfl, fun b hb => ?_⟩
  rw [decode_cons, (decodeByte_eq_inv_iff b).mpr hb]

end Sys2Proof.Machine
end

section
/-! SUPPORT. TXU's tick, an equation for each of its cases (spec/40_serial_transport.md R64). -/

namespace Sys2Proof.Machine

section
variable {s : State} {b : Byte} {i : Fin 10}

theorem State.txuTick_none (h : s.txh = none) : s.txuTick = s := by
  simp only [State.txuTick, h]

/-- Inside a bit-time the frame bit stays. -/
theorem State.txuTick_inside (h : s.txh = some (b, i)) (hk : s.txBitCtr + 1 < Config.BIT_TICKS) :
    s.txuTick = { s with txBitCtr := s.txBitCtr + 1 } := by
  simp only [State.txuTick, h, hk, if_true]

/-- At the end of a bit-time before the stop bit the next frame bit follows. -/
theorem State.txuTick_shifts (h : s.txh = some (b, i)) (hk : Config.BIT_TICKS ≤ s.txBitCtr + 1) (hi : i.val < 9) :
    s.txuTick = { s with txh := some (b, ⟨i.val + 1, by omega⟩), txBitCtr := 0 } := by
  simp only [State.txuTick, h, not_lt.mpr hk, if_false, hi, dif_pos]

/-- At the end of the stop bit TXH empties. -/
theorem State.txuTick_empties (h : s.txh = some (b, i)) (hk : Config.BIT_TICKS ≤ s.txBitCtr + 1) (hi : i.val = 9) :
    s.txuTick = { s with txh := none, txBitCtr := 0 } := by
  simp only [State.txuTick, h, not_lt.mpr hk, if_false, hi, lt_irrefl, dif_neg, not_false_eq_true]

end

theorem step_of_turn_clock {s : State} (h : s.turn = .clock) : step s = .next s.tick := by
  simp only [step, h]

/-- Settles O31: `txd` by the place of the frame bit, and a tick by the cases of TXU's. -/
theorem transmitterShiftsTheFrame : Obligations.TransmitterShiftsTheFrame := by
  unfold Obligations.TransmitterShiftsTheFrame
  refine ⟨fun s h => by rw [State.txd, h], fun s b i h => ?level, fun s ht hn => ⟨s.tick, step_of_turn_clock ht, ?shift⟩⟩
  case level =>
    have hi := i.isLt
    simp only [State.txd, h, frameBit, Config.DATA_BITS]
    obtain h₀ | ⟨h₀, h₈, h₉⟩ | h₉ : i.val = 0 ∨ (i.val ≠ 0 ∧ i.val ≤ 8 ∧ i.val ≠ 9) ∨ i.val = 9 := by omega
    · simp only [h₀, if_true]
    · simp only [h₀, h₈, h₉, if_true, if_false]
    · simp only [h₉]
      rfl
  case shift =>
    obtain ⟨-, -, -, -, -, hx, hc, -⟩ := s.tick_fields hn
    rw [hx, hc]
    refine ⟨fun h => by rw [State.txuTick_none h, h], fun b i h => ⟨fun hk => ?_, fun hk => ?_⟩⟩
    · rw [State.txuTick_inside h hk]
      exact ⟨rfl, rfl⟩
    · obtain hi | hi : i.val < 9 ∨ i.val = 9 := by omega
      · rw [State.txuTick_shifts h hk hi]
        exact ⟨rfl, fun _ => rfl, fun h₉ => by omega⟩
      · rw [State.txuTick_empties h hk hi]
        exact ⟨rfl, fun h₉ => by omega, fun _ => rfl⟩

end Sys2Proof.Machine
end

section
/-! SUPPORT. The receiver and HOST in one tick, field by field, and a frame on the line followed tick by tick
(spec/40_serial_transport.md R65, R68). -/

namespace Sys2Proof.Machine

/-- Inside a segment HOST counts a tick and leaves the line and its input. -/
theorem State.hostTick_inside {s : State} (h : segEnds s.env.lineCtr s.env.line = false) :
    s.hostTick.env.line = s.env.line ∧ s.hostTick.env.lineCtr = s.env.lineCtr + 1 ∧ s.hostTick.env.rxd = s.env.rxd ∧
    s.hostTick.env.items = s.env.items ∧ s.hostTick.env.more = s.env.more := by
  simp [State.hostTick, h]

/-- Where a segment ends and the item has another, HOST goes on to that and leaves its input. -/
theorem State.hostTick_nextSeg {s : State} {seg seg' : LineSeg} {rest : List LineSeg}
    (h : segEnds s.env.lineCtr s.env.line = true) (hl : s.env.line = seg :: seg' :: rest) :
    s.hostTick.env.line = seg' :: rest ∧ s.hostTick.env.lineCtr = 0 ∧ s.hostTick.env.rxd = seg'.level ∧
    s.hostTick.env.items = s.env.items ∧ s.hostTick.env.more = s.env.more := by
  simp [State.hostTick, hl ▸ h, hl, nextLine, lineLevel]

/-- HOST completes an item only by delivering end-of-stream where a segment ends (R66). -/
theorem State.hostTick_rxDone (s : State) : s.hostTick.rxDone =
    s.rxDone ++ if segEnds s.env.lineCtr s.env.line then segDelivers s.env.line else [] := by
  unfold State.hostTick
  dsimp only
  split <;> simp

/-- In a tick of the line HOST's side moves as in HOST's own tick. -/
theorem State.lineTick_env (s : State) : s.lineTick.env = s.hostTick.env := by
  obtain ⟨u, c, q, h⟩ := s.rxuTick_form
  obtain ⟨u', c', h'⟩ := s.rxuTick.hostTick.rxuEdge_form s.env.rxd
  rw [State.lineTick, h']
  exact State.hostTick_env_congr (by rw [h])

/-- In a tick of the line RXU completes its items first, and HOST its end-of-stream. -/
theorem State.lineTick_rxDone (s : State) : s.lineTick.rxDone =
    s.rxuTick.rxDone ++ if segEnds s.env.lineCtr s.env.line then segDelivers s.env.line else [] := by
  obtain ⟨u, c, q, h⟩ := s.rxuTick_form
  obtain ⟨u', c', h'⟩ := s.rxuTick.hostTick.rxuEdge_form s.env.rxd
  have he : s.rxuTick.env = s.env := by rw [h]
  rw [State.lineTick, h', ← he]
  exact s.rxuTick.hostTick_rxDone

/-- After a tick RXU is where its own tick left it, unless it is idle there and the line fell (R65). -/
theorem State.lineTick_rxu (s : State) : s.lineTick.rxu =
    if s.rxuTick.rxu = .idle ∧ s.env.rxd = true ∧ s.lineTick.env.rxd = false then .frame 0 0 else s.rxuTick.rxu := by
  obtain ⟨e, q, h⟩ := s.rxuTick.hostTick_form
  have he : s.lineTick.env = s.rxuTick.hostTick.env := by
    obtain ⟨u', c', h'⟩ := s.rxuTick.hostTick.rxuEdge_form s.env.rxd
    rw [State.lineTick, h']
  rw [he, State.lineTick, h, State.rxuEdge]
  cases s.rxuTick.rxu <;> cases s.env.rxd <;> cases e.rxd <;> simp

/-- RXU ignoring the line completes nothing itself, and is idle again only after a tick with the line at 1; then a fall of it
begins a frame (R65, R67). -/
theorem State.lineTick_heldLow {s : State} (h : s.rxu = .heldLow) :
    s.lineTick.rxu = (if s.env.rxd then if s.lineTick.env.rxd then .idle else .frame 0 0 else .heldLow) ∧
    s.lineTick.rxDone = s.rxDone ++ if segEnds s.env.lineCtr s.env.line then segDelivers s.env.line else [] := by
  rw [State.lineTick_rxu, State.lineTick_rxDone]
  cases hr : s.env.rxd <;> cases s.lineTick.env.rxd <;> simp [State.rxuTick, h, hr]

/-- The level of frame bit `i` of a frame with this stop bit (R57, R58). -/
def frameLevel (b : Byte) (stop : Bool) (i : Fin 10) : Bool := if i.val < 9 then frameBit b i else stop

/-- The data bits RXU has sampled before frame bit `i` of the frame of `b`: the start bit adds none (R65). -/
def sampledBefore (b : Byte) : Nat → Byte
  | 0 => 0
  | i + 1 =>
    if i = 0 then sampledBefore b i else sampleBit (sampledBefore b i) (Fin.ofNat 10 i) (frameBit b (Fin.ofNat 10 i))

/-- Before the stop bit the whole byte has been sampled (R57, R65). -/
theorem sampledBefore_stop (b : Byte) : sampledBefore b 9 = b := sampleBit_frame b

/-- What RXU has sampled after frame bit `i`, on a line at the level of the frame. -/
theorem sampledBefore_succ (b : Byte) (stop : Bool) {i : Fin 10} (hi : i.val < 9) :
    sampledBefore b (i.val + 1) =
      if i.val = 0 then sampledBefore b i.val else sampleBit (sampledBefore b i.val) i (frameLevel b stop i) := by
  rw [sampledBefore, Fin.ofNat_val_eq_self, frameLevel, if_pos hi]

/-- The segments of a frame from frame bit `i` on. -/
theorem frameSegs_drop (b : Byte) (stop : Bool) (i : Fin 10) :
    (frameSegs b stop).drop i.val = .bit (frameLevel b stop i) :: (frameSegs b stop).drop (i.val + 1) := by
  fin_cases i <;> rfl

/-- `t` is `k` ticks into frame bit `i` of a frame of `b` that began in `s`; since then no item was completed, and RXH and
HOST's input are as they were. After the frame the item on the line goes on with `tail`. -/
structure State.Receives (s : State) (b : Byte) (stop : Bool) (tail : List LineSeg) (i : Fin 10) (k : Nat) (t : State) :
    Prop where
  inFrame : t.InFrame (sampledBefore b i.val) i k (frameLevel b stop i) ((frameSegs b stop).drop (i.val + 1) ++ tail)
  rxDone : t.rxDone = s.rxDone
  rxh : t.rxh = s.rxh
  items : t.env.items = s.env.items
  more : t.env.more = s.env.more

section
variable {s t : State} {b : Byte} {stop : Bool} {tail : List LineSeg} {i : Fin 10} {k : Nat}

/-- The tick in which HOST begins an item that starts with a frame, on a line at 1 with RXU idle (R65). -/
theorem State.receives_begins (h : s.LineEnds) (hv : s.env.rxd = true) (hu : s.rxuTick.rxu = .idle)
    (hn : (nextLine [] s.env.items s.env.more).1 = frameSegs b stop ++ tail) :
    s.lineTick.Receives b stop tail 0 0 s.lineTick := by
  obtain ⟨hline, -, -, hrxd, hctr, -, hrxu⟩ := State.lineTick_begins h
  rw [hn] at hline hrxd hrxu
  rw [if_pos ⟨hu, hv, rfl⟩] at hrxu
  exact ⟨⟨hrxu.1, hrxu.2, hctr, hline, hrxd⟩, rfl, rfl, rfl, rfl⟩

/-- A tick inside a bit-time. -/
theorem State.Receives.inside (h : s.Receives b stop tail i k t) (hk : k + 1 < Config.BIT_TICKS) :
    s.Receives b stop tail i (k + 1) t.lineTick := by
  obtain ⟨hf, hd, hx⟩ := State.inFrame_stay h.inFrame hk
  have hs : segEnds t.env.lineCtr t.env.line = false := by
    rw [h.inFrame.line, h.inFrame.lineCtr]
    exact decide_eq_false (by omega)
  obtain ⟨-, -, -, hi, hm⟩ := State.hostTick_inside hs
  rw [← State.lineTick_env] at hi hm
  exact ⟨hf, hd.trans h.rxDone, hx.trans h.rxh, hi.trans h.items, hm.trans h.more⟩

/-- The tick that ends a bit-time before the stop bit. -/
theorem State.Receives.nextBit (hi : i.val < 9) (h : s.Receives b stop tail i (Config.BIT_TICKS - 1) t) :
    s.Receives b stop tail ⟨i.val + 1, by omega⟩ 0 t.lineTick := by
  have hpos := Config.bit_ticks_pos
  have hf := h.inFrame
  rw [frameSegs_drop b stop ⟨i.val + 1, by omega⟩, List.cons_append] at hf
  have hs : segEnds t.env.lineCtr t.env.line = true := by
    rw [hf.line, hf.lineCtr]
    exact decide_eq_true (by omega)
  obtain ⟨-, -, -, hit, hm⟩ := State.hostTick_nextSeg hs hf.line
  rw [← State.lineTick_env] at hit hm
  obtain ⟨hf', hd, hx⟩ := State.inFrame_next hi hf
  rw [← sampledBefore_succ b stop hi] at hf'
  exact ⟨hf', hd.trans h.rxDone, hx.trans h.rxh, hit.trans h.items, hm.trans h.more⟩

/-- Each frame bit is on the line for a bit-time. -/
theorem State.Receives.bitTime (h : s.Receives b stop tail i 0 t) (k : Nat) (hk : k < Config.BIT_TICKS) :
    s.Receives b stop tail i k (State.lineTick^[k] t) := by
  induction k with
  | zero => exact h
  | succ k ih =>
    rw [Function.iterate_succ_apply']
    exact (ih (by omega)).inside hk

/-- Frame bit `i` begins `i` bit-times after the frame. -/
theorem State.Receives.bitBegins (h : s.Receives b stop tail 0 0 s) (i : Nat) (hi : i < 10) :
    s.Receives b stop tail ⟨i, hi⟩ 0 (State.lineTick^[i * Config.BIT_TICKS] s) := by
  have hpos := Config.bit_ticks_pos
  induction i with
  | zero => simpa using h
  | succ i ih =>
    have e : (i + 1) * Config.BIT_TICKS = (Config.BIT_TICKS - 1 + i * Config.BIT_TICKS) + 1 := by
      rw [Nat.succ_mul]
      omega
    rw [e, Function.iterate_succ_apply', Function.iterate_add_apply]
    exact ((ih (by omega)).bitTime _ (by omega)).nextBit (by simp only; omega)

/-- In each of the ticks of a frame RXU is at its place in it. -/
theorem State.Receives.during (h : s.Receives b stop tail 0 0 s) (k : Nat) (hk : k < 10 * Config.BIT_TICKS) :
    ∃ i : Fin 10, s.Receives b stop tail i (k % Config.BIT_TICKS) (State.lineTick^[k] s) := by
  have hi : k / Config.BIT_TICKS < 10 := Nat.div_lt_of_lt_mul (by rwa [Nat.mul_comm])
  have hr := (h.bitBegins _ hi).bitTime _ (Nat.mod_lt k Config.bit_ticks_pos)
  rw [← Function.iterate_add_apply, Nat.mul_comm, Nat.mod_add_div] at hr
  exact ⟨_, hr⟩

/-- The last tick of a frame is the last one of its stop bit. -/
theorem State.Receives.lastTick (h : s.Receives b stop tail 0 0 s) :
    s.Receives b stop tail 9 (Config.BIT_TICKS - 1) (State.lineTick^[10 * Config.BIT_TICKS - 1] s) := by
  have hpos := Config.bit_ticks_pos
  have e : 10 * Config.BIT_TICKS - 1 = (Config.BIT_TICKS - 1) + 9 * Config.BIT_TICKS := by omega
  rw [e, Function.iterate_add_apply]
  exact (h.bitBegins 9 (by decide)).bitTime _ (by omega)

/-- In its last tick the stop bit, `stop`, is on the line, with what follows the frame behind it. -/
theorem State.Receives.stopBit (h : s.Receives b stop tail 9 (Config.BIT_TICKS - 1) t) :
    t.InFrame b 9 (Config.BIT_TICKS - 1) stop tail := by
  have hf := h.inFrame
  rwa [show ((9 : Fin 10) : Nat) = 9 from rfl, sampledBefore_stop] at hf

end

/-- In the last tick of a stop bit the segment ends. -/
theorem State.InFrame.segEnds_stop {s : State} {d : Byte} {v : Bool} {rest : List LineSeg}
    (h : s.InFrame d 9 (Config.BIT_TICKS - 1) v rest) : segEnds s.env.lineCtr s.env.line = true := by
  have hpos := Config.bit_ticks_pos
  rw [h.line, h.lineCtr]
  exact decide_eq_true (by omega)

/-- In the last tick of a stop bit RXU leaves the frame: to idle, or, on a framing error, to ignoring the line (R65, R67). -/
theorem State.InFrame.rxuTick_stop {s : State} {d : Byte} {v : Bool} {rest : List LineSeg}
    (h : s.InFrame d 9 (Config.BIT_TICKS - 1) v rest) : s.rxuTick.rxu = if v then .idle else .heldLow := by
  have hpos := Config.bit_ticks_pos
  have hk : ¬ Config.BIT_TICKS - 1 + 1 < Config.BIT_TICKS := by omega
  simp [State.rxuTick, h.rxu, h.rxBitCtr, hk, h.rxd]

theorem iterate_lineTick_one_add (k : Nat) (s : State) : State.lineTick^[1 + k] s = State.lineTick^[k] s.lineTick := by
  rw [Nat.add_comm, Function.iterate_succ_apply]

/-- The last tick of a frame that begins in this tick. -/
theorem iterate_lineTick_frame (s : State) :
    State.lineTick^[10 * Config.BIT_TICKS] s = State.lineTick^[10 * Config.BIT_TICKS - 1] s.lineTick := by
  have hpos := Config.bit_ticks_pos
  rw [← Function.iterate_succ_apply, Nat.succ_eq_add_one, Nat.sub_add_cancel (by omega)]

end Sys2Proof.Machine
end

section
/-! SUPPORT. The line held at 0 behind the frame of a break (spec/40_serial_transport.md R67). -/

namespace Sys2Proof.Machine

/-- HOST is `k` ticks into the hold of a break, which RXU ignores; `q` are the items completed, `items` and `more` HOST's input
behind the break. -/
structure State.InBreak (s : State) (q : List RxItem) (n : Nat) (items : List HostItem) (more : Option Nat) (k : Nat) : Prop where
  rxu : s.rxu = .heldLow
  rxDone : s.rxDone = q
  rxd : s.env.rxd = false
  line : s.env.line = [.hold false n]
  lineCtr : s.env.lineCtr = k
  items : s.env.items = items
  more : s.env.more = more

/-- No item HOST offers delivers end-of-stream with its first segment (R66). -/
theorem segDelivers_nextLine (items : List HostItem) (more : Option Nat) :
    segDelivers (nextLine [] items more).1 = [] := by
  have hseg : ∀ it, segDelivers (itemSegs it) = [] := fun it => by cases it <;> rfl
  unfold nextLine
  split
  case h_1 => contradiction
  case h_2 => exact hseg _
  case h_3 => rfl
  case h_4 =>
    split
    · exact hseg _
    · rfl

/-- Where RXU ignores the line at 0 it goes on doing so, and completes nothing but an end-of-stream of HOST (R67). -/
theorem State.lineTick_heldLow_low {s : State} (h : s.rxu = .heldLow) (hr : s.env.rxd = false) :
    s.lineTick.rxu = .heldLow ∧
    s.lineTick.rxDone = s.rxDone ++ if segEnds s.env.lineCtr s.env.line then segDelivers s.env.line else [] := by
  obtain ⟨hu, hd⟩ := State.lineTick_heldLow h
  rw [hr] at hu
  exact ⟨hu, hd⟩

section
variable {s t : State} {b : Byte} {q : List RxItem} {n k : Nat} {items : List HostItem} {more : Option Nat}

/-- The tick that ends the stop bit of a break completes `Err`, and the hold begins (R58, R67). -/
theorem State.Receives.breakHolds (h : s.Receives b false [.hold false n] 9 (Config.BIT_TICKS - 1) t) :
    t.lineTick.InBreak (s.rxDone ++ [.err]) n s.env.items s.env.more 0 := by
  have hf := h.stopBit
  obtain ⟨hline, hctr, hrxd, hi, hm⟩ := State.hostTick_nextSeg hf.segEnds_stop hf.line
  rw [← State.lineTick_env] at hline hctr hrxd hi hm
  refine ⟨?_, ?_, hrxd, hline, hctr, hi.trans h.items, hm.trans h.more⟩
  · simp [State.lineTick_rxu, hf.rxuTick_stop]
  · rw [(State.inFrame_end hf).1, h.rxDone, frameItem]
    rfl

/-- In each tick of the hold RXU ignores the line and completes nothing. -/
theorem State.InBreak.ignores (h : s.InBreak q n items more k) : s.lineTick.rxu = .heldLow ∧ s.lineTick.rxDone = q := by
  obtain ⟨hu, hd⟩ := State.lineTick_heldLow_low h.rxu h.rxd
  exact ⟨hu, by simpa [h.line, segDelivers, h.rxDone] using hd⟩

/-- A tick inside the hold. -/
theorem State.InBreak.inside (h : s.InBreak q n items more k) (hk : k < n) : s.lineTick.InBreak q n items more (k + 1) := by
  obtain ⟨hu, hd⟩ := h.ignores
  have hs : segEnds s.env.lineCtr s.env.line = false := by
    rw [h.line, h.lineCtr]
    exact decide_eq_false (by omega)
  obtain ⟨hline, hctr, hrxd, hi, hm⟩ := State.hostTick_inside hs
  rw [← State.lineTick_env] at hline hctr hrxd hi hm
  exact ⟨hu, hd, hrxd.trans h.rxd, hline.trans h.line, by rw [hctr, h.lineCtr], hi.trans h.items, hm.trans h.more⟩

/-- The hold lasts `n + 1` ticks. -/
theorem State.InBreak.during (h : s.InBreak q n items more 0) (k : Nat) (hk : k ≤ n) :
    (State.lineTick^[k] s).InBreak q n items more k := by
  induction k with
  | zero => exact h
  | succ k ih =>
    rw [Function.iterate_succ_apply']
    exact (ih (by omega)).inside hk

/-- With the last tick of the hold HOST begins what it offers next, while RXU still ignores the line (R67, R68). -/
theorem State.InBreak.goesOn (h : s.InBreak q n items more 0) :
    (State.lineTick^[n + 1] s).rxu = .heldLow ∧ (State.lineTick^[n + 1] s).rxDone = q ∧
    (State.lineTick^[n + 1] s).env.rxd = lineLevel (nextLine [] items more).1 ∧
    segDelivers (State.lineTick^[n + 1] s).env.line = [] := by
  rw [Function.iterate_succ_apply']
  have hl := h.during n (le_refl n)
  have hends : (State.lineTick^[n] s).LineEnds := by
    rw [State.LineEnds, hl.line, hl.lineCtr]
    exact ⟨decide_eq_true (le_refl n), rfl⟩
  obtain ⟨hline, -, -, hrxd, -⟩ := State.lineTick_begins hends
  rw [hl.items, hl.more] at hline hrxd
  exact ⟨hl.ignores.1, hl.ignores.2, hrxd, by rw [hline, segDelivers_nextLine]⟩

/-- In the tick after the hold RXU sees what HOST went on to: it leaves the line only if that is at 1 (R67). -/
theorem State.InBreak.released (h : s.InBreak q n items more 0) :
    (State.lineTick^[n + 2] s).rxDone = q ∧
    (State.lineTick^[n + 2] s).rxu =
      (if (State.lineTick^[n + 1] s).env.rxd then
        if (State.lineTick^[n + 2] s).env.rxd then .idle else .frame 0 0
      else .heldLow) := by
  obtain ⟨hu, hd, -, hseg⟩ := h.goesOn
  obtain ⟨hu', hd'⟩ := State.lineTick_heldLow hu
  rw [hd, hseg, ite_self, List.append_nil] at hd'
  rw [Function.iterate_succ_apply' _ (n + 1)]
  exact ⟨hd', hu'⟩

end

end Sys2Proof.Machine
end

section
/-! SUPPORT. The obligations of the family `30_encoding.md` about the receiver. -/

namespace Sys2Proof.Machine

/-- Settles O35: the frame is followed bit by bit to the last tick of its stop bit, which completes the item. -/
theorem receiverReadsTheOfferedFrame : Obligations.ReceiverReadsTheOfferedFrame := by
  unfold Obligations.ReceiverReadsTheOfferedFrame
  intro s b stop hends hrxd hidle hoffers
  have hr : s.lineTick.Receives b stop [] 0 0 s.lineTick :=
    State.receives_begins hends hrxd hidle (by rw [List.append_nil]; exact hoffers)
  have hl := hr.lastTick
  have hf := hl.stopBit
  obtain ⟨hd, hx⟩ := State.inFrame_end hf
  rw [← iterate_lineTick_frame] at hl hf hd hx
  refine ⟨fun k hk => ?_, ?_, ?_, ⟨hf.segEnds_stop, by rw [hf.line]; rfl⟩, hf.rxd, hf.rxuTick_stop⟩
  · obtain ⟨i, hi⟩ := hr.during k hk
    rw [iterate_lineTick_one_add, hi.rxDone]
  · rw [Nat.add_comm, Function.iterate_succ_apply', hd, hl.rxDone, frameItem]
  · obtain ⟨-, -, -, -, -, hx₀, -⟩ := State.lineTick_begins hends
    rw [Nat.add_comm, Function.iterate_succ_apply', hx, hl.rxh, hx₀]

/-- Settles O37: the frame of the break is followed to its stop bit of 0, then its hold to the tick in which HOST goes on, and
from there RXU leaves the line only when it has been at 1. -/
theorem breakIsOneReadError : Obligations.BreakIsOneReadError := by
  unfold Obligations.BreakIsOneReadError
  refine ⟨fun s n items more hends hrxd hidle hnext => ?_, fun s hu hr => State.lineTick_heldLow_low hu hr⟩
  obtain ⟨-, hitems, hmore, -⟩ := State.lineTick_begins hends
  rw [hnext] at hitems hmore
  dsimp only at hitems hmore
  have hr : s.lineTick.Receives 0 false [.hold false n] 0 0 s.lineTick :=
    State.receives_begins hends hrxd hidle (by rw [hnext]; rfl)
  have hb : (State.lineTick^[1 + 10 * Config.BIT_TICKS] s).InBreak (s.lineTick.rxDone ++ [.err]) n items more 0 := by
    rw [Nat.add_comm, Function.iterate_succ_apply', iterate_lineTick_frame, ← hitems, ← hmore]
    exact hr.lastTick.breakHolds
  have hafter : ∀ k, State.lineTick^[1 + 10 * Config.BIT_TICKS + k] s =
      State.lineTick^[k] (State.lineTick^[1 + 10 * Config.BIT_TICKS] s) := fun k => by
    rw [Nat.add_comm, Function.iterate_add_apply]
  generalize State.lineTick^[1 + 10 * Config.BIT_TICKS] s = t at hb hafter
  obtain ⟨hu, hd, hv, -⟩ := hb.goesOn
  simp only [hafter]
  refine ⟨fun k hk => ?_, fun k hk => (hb.during k hk).rxd, fun k hk => ?_, hv, hb.released⟩
  · obtain ⟨i, hi⟩ := hr.during k hk
    rw [iterate_lineTick_one_add, hi.rxDone]
  · obtain hk | rfl : k ≤ n ∨ k = n + 1 := by omega
    · exact ⟨(hb.during k hk).rxu, (hb.during k hk).rxDone⟩
    · exact ⟨hu, hd⟩

end Sys2Proof.Machine
end

section
/-! SUPPORT. End-of-stream on the line, followed tick by tick: the line stays at 1, so RXU is in no frame and completes nothing
(spec/40_serial_transport.md R65, R66, R68). -/

namespace Sys2Proof.Machine

/-- A tick of the line leaves RXH (log entries 1 and 3). -/
theorem State.lineTick_rxh (s : State) : s.lineTick.rxh = s.rxh := by
  obtain ⟨u, c, q, h₁⟩ := s.rxuTick_form
  obtain ⟨e, q', h₂⟩ := s.rxuTick.hostTick_form
  obtain ⟨u', c', h₃⟩ := s.rxuTick.hostTick.rxuEdge_form s.env.rxd
  rw [State.lineTick, h₃, h₂, h₁]

theorem State.iterate_lineTick_rxh (n : Nat) (s : State) : (State.lineTick^[n] s).rxh = s.rxh := by
  induction n with
  | zero => rfl
  | succ n ih => rw [Function.iterate_succ_apply', State.lineTick_rxh, ih]

/-- Where the line does not fall in a tick, RXU is where its own tick left it (R65). -/
theorem State.lineTick_rxu_of_high {s : State} (h : s.lineTick.env.rxd = true) : s.lineTick.rxu = s.rxuTick.rxu := by
  simp [State.lineTick_rxu, h]

/-- What is on the line of an end-of-stream when `m` of its segments follow the present one. -/
def eosSegs (m : Nat) : List LineSeg := List.replicate m (.bit true) ++ [.eosBit]

theorem eosSegs_succ (m : Nat) : eosSegs (m + 1) = .bit true :: eosSegs m := rfl

/-- Each segment of an end-of-stream is at 1. -/
theorem eosSegs_cons (m : Nat) : ∃ seg rest, eosSegs m = seg :: rest ∧ seg.level = true := by
  cases m <;> exact ⟨_, _, rfl, rfl⟩

/-- Each segment of an end-of-stream lasts a bit-time. -/
theorem segEnds_eosSegs (m k : Nat) : segEnds k (eosSegs m) = decide (Config.BIT_TICKS ≤ k + 1) := by
  cases m <;> rfl

/-- HOST is `k` ticks into a segment of an end-of-stream, `m` segments before its last one, with the line at 1; RXU is in no
frame, and `q` are the items completed. -/
structure State.AwaitsEos (s : State) (q : List RxItem) (m k : Nat) : Prop where
  rxu : s.rxu = .idle ∨ s.rxu = .heldLow
  rxDone : s.rxDone = q
  rxd : s.env.rxd = true
  line : s.env.line = eosSegs m
  lineCtr : s.env.lineCtr = k

section
variable {s : State} {q : List RxItem} {m k : Nat}

/-- The tick in which HOST begins an end-of-stream with RXU in no frame (R66). -/
theorem State.awaitsEos_begins (h : s.LineEnds) (hu : s.rxuTick.rxu = .idle ∨ s.rxuTick.rxu = .heldLow)
    (ho : s.Offers .eos) : s.lineTick.AwaitsEos s.lineTick.rxDone 9 0 := by
  obtain ⟨hline, -, -, hrxd, hctr, -⟩ := State.lineTick_begins h
  rw [State.Offers] at ho
  rw [ho] at hline hrxd
  exact ⟨by rwa [State.lineTick_rxu_of_high hrxd], rfl, hrxd, hline, hctr⟩

/-- With the line at 1 and no frame begun, RXU's tick leaves it idle and does nothing else (R65, R67). -/
theorem State.AwaitsEos.rxuTick (h : s.AwaitsEos q m k) : s.rxuTick = { s with rxu := .idle } := by
  obtain hu | hu := h.rxu
  · simp only [State.rxuTick, hu]
    rw [← hu]
  · simp only [State.rxuTick, hu, h.rxd, if_true]

/-- A tick inside a bit-time. -/
theorem State.AwaitsEos.inside (h : s.AwaitsEos q m k) (hk : k + 1 < Config.BIT_TICKS) :
    s.lineTick.AwaitsEos q m (k + 1) ∧ s.lineTick.rxu = .idle := by
  have hs : segEnds s.env.lineCtr s.env.line = false := by
    rw [h.line, h.lineCtr, segEnds_eosSegs]
    exact decide_eq_false (by omega)
  obtain ⟨hline, hctr, hrxd, -⟩ := State.hostTick_inside hs
  rw [← State.lineTick_env] at hline hctr hrxd
  rw [h.rxd] at hrxd
  have hu : s.lineTick.rxu = .idle := by rw [State.lineTick_rxu_of_high hrxd, h.rxuTick]
  have hd : s.lineTick.rxDone = q := by simp [State.lineTick_rxDone, h.rxuTick, hs, h.rxDone]
  exact ⟨⟨.inl hu, hd, hrxd, hline.trans h.line, by rw [hctr, h.lineCtr]⟩, hu⟩

/-- The segment on the line ends after its bit-time. -/
theorem State.AwaitsEos.segEnds (h : s.AwaitsEos q m k) (hk : Config.BIT_TICKS ≤ k + 1) :
    segEnds s.env.lineCtr s.env.line = true := by
  rw [h.line, h.lineCtr, segEnds_eosSegs]
  exact decide_eq_true hk

/-- The tick that ends a bit-time before the last one. -/
theorem State.AwaitsEos.nextBit (h : s.AwaitsEos q (m + 1) k) (hk : Config.BIT_TICKS ≤ k + 1) :
    s.lineTick.AwaitsEos q m 0 ∧ s.lineTick.rxu = .idle := by
  have hs := h.segEnds hk
  obtain ⟨seg, rest, hm, hv⟩ := eosSegs_cons m
  have hl : s.env.line = .bit true :: seg :: rest := by rw [h.line, eosSegs_succ, hm]
  obtain ⟨hline, hctr, hrxd, -⟩ := State.hostTick_nextSeg hs hl
  rw [← State.lineTick_env] at hline hctr hrxd
  rw [hv] at hrxd
  have hu : s.lineTick.rxu = .idle := by rw [State.lineTick_rxu_of_high hrxd, h.rxuTick]
  have hd : s.lineTick.rxDone = q := by simp [State.lineTick_rxDone, h.rxuTick, hl, segDelivers, h.rxDone]
  exact ⟨⟨.inl hu, hd, hrxd, hline.trans hm.symm, hctr⟩, hu⟩

/-- The tick that ends the last bit-time delivers end-of-stream (R66). -/
theorem State.AwaitsEos.delivers (h : s.AwaitsEos q 0 k) (hk : Config.BIT_TICKS ≤ k + 1) :
    s.lineTick.rxDone = q ++ [.eos] := by
  rw [State.lineTick_rxDone, h.segEnds hk, h.rxuTick, h.rxDone, h.line]
  rfl

/-- In each of the ticks of a frame time HOST is at its place in the end-of-stream, and RXU is idle from the second on. -/
theorem State.AwaitsEos.during (h : s.AwaitsEos q 9 0) (n : Nat) (hn : n < 10 * Config.BIT_TICKS) :
    ∃ m k, n + m * Config.BIT_TICKS = 9 * Config.BIT_TICKS + k ∧ k < Config.BIT_TICKS ∧
      (State.lineTick^[n] s).AwaitsEos q m k ∧ (State.lineTick^[n] s).rxu = if n = 0 then s.rxu else .idle := by
  have hpos := Config.bit_ticks_pos
  induction n with
  | zero => exact ⟨9, 0, by omega, hpos, h, rfl⟩
  | succ n ih =>
    obtain ⟨m, k, he, hk, ha, -⟩ := ih (by omega)
    rw [Function.iterate_succ_apply', if_neg n.succ_ne_zero]
    obtain hk' | hk' : k + 1 < Config.BIT_TICKS ∨ Config.BIT_TICKS ≤ k + 1 := by omega
    · exact ⟨m, k + 1, by omega, hk', ha.inside hk'⟩
    · cases m with
      | zero => omega
      | succ m =>
        rw [Nat.succ_mul m] at he
        exact ⟨m, 0, by omega, hpos, ha.nextBit hk'⟩

/-- The last tick of the frame time is the last one of the last segment. -/
theorem State.AwaitsEos.lastTick (h : s.AwaitsEos q 9 0) :
    (State.lineTick^[10 * Config.BIT_TICKS - 1] s).AwaitsEos q 0 (Config.BIT_TICKS - 1) := by
  have hpos := Config.bit_ticks_pos
  obtain ⟨m, k, he, hk, ha, -⟩ := h.during (10 * Config.BIT_TICKS - 1) (by omega)
  cases m with
  | zero =>
    obtain rfl : k = Config.BIT_TICKS - 1 := by omega
    exact ha
  | succ m =>
    rw [Nat.succ_mul m] at he
    omega

end

end Sys2Proof.Machine
end

section
/-! SUPPORT. The obligations of the family `40_serial_transport.md`. -/

namespace Sys2Proof.Machine

/-- Settles O36: the end-of-stream is followed tick by tick to the last tick of its frame time, which delivers it. -/
theorem endOfStreamArrivesInAFrameTime : Obligations.EndOfStreamArrivesInAFrameTime := by
  unfold Obligations.EndOfStreamArrivesInAFrameTime
  intro s hends hu hoffers
  have hb := State.awaitsEos_begins hends hu hoffers
  have hu₀ : s.lineTick.rxu = s.rxuTick.rxu := State.lineTick_rxu_of_high hb.rxd
  have hpos := Config.bit_ticks_pos
  have hl := hb.lastTick
  rw [← iterate_lineTick_frame] at hl
  refine ⟨fun k hk => ?_, ?_, State.iterate_lineTick_rxh _ s, ⟨hl.segEnds (by omega), by rw [hl.line]; rfl⟩, hl.rxd,
    by rw [hl.rxuTick]⟩
  · obtain ⟨_, _, -, -, ha, hrxu⟩ := hb.during k hk
    rw [iterate_lineTick_one_add]
    exact ⟨ha.rxd, by rw [hrxu, hu₀], ha.rxDone⟩
  · rw [Nat.add_comm, Function.iterate_succ_apply', hl.delivers (by omega)]

/-- No more than a frame time remains of a transmission (R72). -/
theorem State.txRemaining_le (s : State) : s.txRemaining ≤ 10 * Config.BIT_TICKS := by
  unfold State.txRemaining
  split
  · exact Nat.zero_le _
  · exact (Nat.sub_le _ _).trans (Nat.mul_le_mul_right _ (Nat.sub_le _ _))

/-- Settles O33: the bound of R6 on a bit-time, and TXU's tick. -/
theorem transmissionEndsInAFrameTime : Obligations.TransmissionEndsInAFrameTime := by
  unfold Obligations.TransmissionEndsInAFrameTime
  have hbit := Config.bit_ticks_lt
  refine ⟨by omega, fun s => ⟨s.txRemaining_le, fun hc => ⟨(State.txRemaining_zero hc).symm, fun t ht hn h => ?_⟩⟩⟩
  obtain rfl : s.tick = t := Host.Outcome.next.inj ((step_of_turn_clock ht).symm.trans h)
  obtain ⟨-, -, -, -, -, hx, hb, -⟩ := s.tick_fields hn
  have hrem : s.tick.txRemaining = s.txuTick.txRemaining := by rw [State.txRemaining, State.txRemaining, hx, hb]
  rw [hrem, hb]
  exact s.txuTick_remaining hc

/-- Settles O39: the first clause is a clause of the invariant, and where SEQ can act no tick passes. -/
theorem readNeverHolds : Obligations.ReadNeverHolds := by
  unfold Obligations.ReadNeverHolds
  refine ⟨fun s t hs h => step_readHasItem h hs, fun s own hs hl hp => ?_⟩
  have hq : s.seqReady = true := by simp [State.seqReady, hl, hp, hs own hp]
  refine ⟨hq, fun ht => ?_⟩
  have hturn := s.turn_spec
  simp [ht, hq] at hturn

/-- Settles O59: SEQ's and TXU's ticks leave the side of the line, so the tick moves it as `State.lineTick` does. -/
theorem tickMovesTheLine : Obligations.TickMovesTheLine := by
  unfold Obligations.TickMovesTheLine
  intro s ht hn
  obtain ⟨p, w, c, h₁⟩ := s.seqTick_form
  obtain ⟨x, c', h₂⟩ := s.seqTick.txuTick_form
  obtain ⟨hu, hc, hd, he⟩ := State.lineSide_congr (s := s.seqTick.txuTick) (t := s) (by rw [h₂, h₁]) (by rw [h₂, h₁])
    (by rw [h₂, h₁]) (by rw [h₂, h₁]) s.env.rxd
  obtain ⟨-, -, -, -, hx, -⟩ := s.tick_fields hn
  refine ⟨s.tick, step_of_turn_clock ht, ?_, ?_, ?_, ?_, hx⟩ <;> rw [s.tick_of_low hn]
  · exact hu
  · exact hc
  · exact hd
  · exact he

/-- Settles O38: a byte by itself, the other two items as the items of a stream fault. -/
theorem readTakesTheItem : Obligations.ReadTakesTheItem := by
  unfold Obligations.ReadTakesTheItem
  intro s item own ht hp hx
  have hs : step s = .next (s.pollRead own) := by
    rw [step_of_turn_seq ht]
    simp only [State.seqStep, hp]
  refine ⟨_, hs, ?_⟩
  cases item with
  | byte b => simp [State.pollRead_byte own hx]
  | eos => simp [State.pollRead_fault (kind := .endOfStream) own hx]
  | err => simp [State.pollRead_fault (kind := .readError) own hx]

/-- Settles O40: the two cases of the poll, by what RXH holds. -/
theorem pollSeesRxh : Obligations.PollSeesRxh := by
  unfold Obligations.PollSeesRxh
  intro s ht hp
  have hs : step s = .next s.pollSample := by
    rw [step_of_turn_seq ht]
    simp only [State.seqStep, hp]
  obtain ⟨ha, hph⟩ | ⟨ha, hph⟩ := s.pollSample_ph
  · have hx : s.rxh ≠ none := Option.isSome_iff_ne_none.mp ha
    exact ⟨_, hs, rfl, rfl, fun h => absurd h hx, fun _ => ⟨_, hph, Config.ownTime_le s.free⟩⟩
  · have hx : s.rxh = none := by simpa [State.rxAvail] using ha
    exact ⟨_, hs, rfl, rfl, fun _ => ⟨_, hph, Config.ownTime_le s.free⟩, fun h => absurd hx h⟩

end Sys2Proof.Machine
end

section
/-! SUPPORT. The candidates of the commands inside the bound range, and what every command but `RST` keeps of the range
(spec/41_command_interpreter.md R80 to R87, R91, R94). -/

namespace Sys2Proof

/-- The byte of a digit command (R51, R52). -/
theorem encodeByte_digit (d : Fin 10) : encodeByte (.digit d) = BitVec.ofNat 8 (0x30 + d.val) := by
  revert d
  decide

end Sys2Proof

namespace Sys2Proof.Machine

/-- The next state of a command is what it commits (R76, R108). -/
theorem eq_commit_of_exec {i : Instr} {s t : State} (h : exec i s = .next t) : t = s.commit (interpretInstr i s.latch) :=
  Host.Outcome.next.inj (h.symm.trans (exec_eq_commit i s))

/-- A register write of a natural candidate, as the clamp of R11 on the naturals (R90). -/
theorem Latch.bounded_toNat (l : Latch) (n : Nat) : (l.bounded n).toNat =
    if n < l.min.toNat then l.min.toNat else if n > l.max.toNat then l.max.toNat else n := by
  obtain ⟨hlo, e⟩ | ⟨hlo, hhi, e⟩ | ⟨hlo, hhi, e⟩ := l.bounded_cases n
  · rw [e, if_pos (Int.ofNat_lt.mp hlo)]
  · rw [e, if_neg (not_lt.mpr (Int.ofNat_le.mp hlo)), if_pos (Int.ofNat_lt.mp hhi)]
  · rw [if_neg (not_lt.mpr (Int.ofNat_le.mp hlo)), if_neg (not_lt.mpr (Int.ofNat_le.mp hhi))]
    exact Int.ofNat.inj e

/-- A candidate in the bound range is written unchanged (R11, R90). -/
theorem Latch.bounded_of_mem {l : Latch} {v : Int} (h₁ : l.min.int ≤ v) (h₂ : v ≤ l.max.int) : (l.bounded v).int = v := by
  rw [Latch.bounded_int, clamp_of_mem h₁ h₂]

/-- A register's value in the bound range is written as that register (R91). -/
theorem Latch.bounded_word {l : Latch} {w : Word} (h₁ : l.min.toNat ≤ w.toNat) (h₂ : w.toNat ≤ l.max.toNat) :
    l.bounded w.int = w :=
  BitVec.eq_of_toNat_eq (Int.ofNat.inj (Latch.bounded_of_mem (Int.ofNat_le.mpr h₁) (Int.ofNat_le.mpr h₂)))

theorem Latch.InRange.min_le_max {l : Latch} (h : l.InRange) : l.min.toNat ≤ l.max.toNat := h.1.trans h.2

/-- The centre as a natural number (R82). -/
theorem Latch.centre_natCast (l : Latch) : l.centre = ((l.min.toNat + l.max.toNat + 1) / 2 : Nat) := by
  rw [Latch.centre_eq]
  push_cast
  rfl

/-- The centre lies in the bound range, so the clamp of R82 does nothing. -/
theorem Latch.centre_mem {l : Latch} (h : l.min.int ≤ l.max.int) : l.min.int ≤ l.centre ∧ l.centre ≤ l.max.int := by
  rw [Latch.centre_eq]
  omega

theorem Latch.digitPosition_zero (l : Latch) : l.digitPosition 0 = l.min.int := by
  rw [Latch.digitPosition_eq]
  simp

theorem Latch.digitPosition_nine (l : Latch) : l.digitPosition 9 = l.max.int := by
  rw [Latch.digitPosition_eq, show (((9 : Fin 10).val : Nat) : Int) = 9 from rfl]
  omega

/-- In range, no command but `RST` widens the bounds (R25, R85, R86). -/
theorem interpretInstr_narrows {i : Instr} {l : Latch} (h : l.InRange) (hi : i ≠ .rst) :
    l.min.toNat ≤ (interpretInstr i l).1.min.toNat ∧ (interpretInstr i l).1.max.toNat ≤ l.max.toNat := by
  obtain e | ⟨-, v, e⟩ | ⟨-, e⟩ | ⟨-, e⟩ | ⟨rfl, -⟩ := interpretInstr_latch i l
  case inr.inr.inr.inr => exact absurd rfl hi
  all_goals rw [e]
  · exact ⟨le_refl _, le_refl _⟩
  · exact ⟨le_refl _, le_refl _⟩
  · exact ⟨h.1, le_refl _⟩
  · exact ⟨le_refl _, h.2⟩

end Sys2Proof.Machine
end

section
/-! SUPPORT. The obligations of the family `41_command_interpreter.md`. -/

namespace Sys2Proof.Machine

/-- Settles O15: each pair of the list is a digit with its command, and in range the clamp is idle. -/
theorem digitsInterpolate : Obligations.DigitsInterpolate := by
  unfold Obligations.DigitsInterpolate
  intro di hdi
  have hpair : di.2 = .digit di.1 := by
    revert di
    decide
  rw [hpair]
  refine ⟨by rw [← encodeByte_digit, decodeByte_digit], fun s => ⟨s.latch.bounded (s.latch.digitPosition di.1), ?_, ?_⟩⟩
  · rw [exec_eq_commit, interpretInstr_digit]
    rfl
  · intro v hv
    obtain rfl : v = s.latch.digitPosition di.1 := hv.trans (s.latch.digitPosition_eq di.1).symm
    refine ⟨s.latch.bounded_int _, fun hr => ?_⟩
    obtain ⟨hlo, hhi⟩ := s.latch.digitPosition_mem di.1 (Int.ofNat_le.mpr hr.min_le_max)
    exact Latch.bounded_of_mem hlo hhi

/-- Settles O19: what a command commits is a function of the latch. -/
theorem commandsReadAndWriteTheLatchAlone : Obligations.CommandsReadAndWriteTheLatchAlone := by
  unfold Obligations.CommandsReadAndWriteTheLatchAlone
  intro i s₁ s₂ h
  refine ⟨_, _, exec_eq_commit i s₁, ?_⟩
  rw [h]
  exact exec_eq_commit i s₂

/-- Settles O21: the range is a clause of the invariant, and both candidates lie in it. -/
theorem commandsKeepPwInRange : Obligations.CommandsKeepPwInRange := by
  unfold Obligations.CommandsKeepPwInRange
  refine ⟨Latch.defaults_inRange, fun i s hs => ⟨_, exec_eq_commit i s, interpretInstr_inRange i hs⟩,
    fun s t hs h => step_inRange h hs, fun l hl => ?_⟩
  have hle : l.min.int ≤ l.max.int := Int.ofNat_le.mpr hl.min_le_max
  obtain ⟨hclo, hchi⟩ := Latch.centre_mem hle
  refine ⟨clamp_of_mem hclo hchi, fun d => ?_⟩
  obtain ⟨hlo, hhi⟩ := l.digitPosition_mem d hle
  exact clamp_of_mem hlo hhi

/-- Settles O23: the new range lies in the old one, which is one value, and holds the new PW. -/
theorem collapsedRangeHoldsPw : Obligations.CollapsedRangeHoldsPw := by
  unfold Obligations.CollapsedRangeHoldsPw
  intro s hs
  refine ⟨fun h => ⟨_, exec_eq_commit .smin s, h⟩, fun h => ⟨_, exec_eq_commit .smax s, h.symm⟩,
    fun h i hi => ⟨_, exec_eq_commit i s, ?_⟩⟩
  obtain ⟨hlo, hhi⟩ := interpretInstr_narrows hs hi
  obtain ⟨hlo', hhi'⟩ := interpretInstr_inRange i hs
  obtain ⟨hpw, hpw'⟩ := hs
  simp only [State.commit_latch, ← BitVec.toNat_inj] at h ⊢
  omega

/-- Settles O27: whoever's turn it is, the move is a next state. -/
theorem everyStepAnswersNext : Obligations.EveryStepAnswersNext := by
  unfold Obligations.EveryStepAnswersNext
  intro s
  unfold step
  cases s.turn with
  | reset => exact ⟨_, rfl⟩
  | seq => exact s.seqStep_next
  | rxu => exact ⟨_, rfl⟩
  | clock => exact ⟨_, rfl⟩

/-- Settles O29: a clause of the invariant, and the writers of the two registers (R25). -/
theorem incAndOvhStayAtDefaults : Obligations.IncAndOvhStayAtDefaults := by
  unfold Obligations.IncAndOvhStayAtDefaults
  refine ⟨⟨rfl, rfl⟩, fun s t h hs => step_constantsHeld h hs, fun i s t h hne => ?_⟩
  obtain ⟨u, hu, -, -, -, hinc, hovh⟩ := eachRegisterHasItsWriters i s
  obtain rfl : t = u := Host.Outcome.next.inj (h.symm.trans hu)
  obtain hne | hne := hne
  · exact (hinc hne).1
  · exact (hovh hne).1

/-- Settles O9: in range the candidate is not above MAX, so only the floor is left of the clamp. -/
theorem decLowersPwFlooredAtMin : Obligations.DecLowersPwFlooredAtMin := by
  unfold Obligations.DecLowersPwFlooredAtMin
  refine ⟨by decide, fun s => ⟨s.latch.bounded s.latch.decCandidate, exec_eq_commit .dec s, s.latch.bounded_int _, ?_⟩⟩
  rintro ⟨-, hhi⟩
  obtain ⟨hlt, e⟩ | ⟨-, hgt, -⟩ | ⟨hge, -, e⟩ := s.latch.bounded_cases s.latch.decCandidate
  · rw [e]
    exact (max_eq_right hlt.le).symm
  · simp only [Latch.decCandidate_eq, Word.int] at hgt
    omega
  · exact e.trans (max_eq_left hge).symm

/-- Settles O10: the skipped increment and the clamped one. -/
theorem incRaisesPwOrIsSkipped : Obligations.IncRaisesPwOrIsSkipped := by
  unfold Obligations.IncRaisesPwOrIsSkipped
  refine ⟨by decide, fun s => ⟨(interpretInc s.latch).1.pw, exec_eq_commit .inc s, fun h => ?skipped, fun h => ?applied⟩⟩
  case skipped => rw [interpretInc_skipped s.latch (by simp only [Word.int]; omega)]
  case applied =>
    rw [interpretInc_applied s.latch (by simp only [Word.int]; omega)]
    have hw := s.latch.bounded_toNat (s.latch.pw.toNat + s.latch.inc.toNat)
    refine ⟨hw, ?_⟩
    rintro ⟨hlo, hhi⟩
    refine hw.trans ?_
    rw [if_neg (by omega)]
    split <;> omega

/-- Settles O11: the centre is a natural number, and in range the clamp is idle. -/
theorem ctrCentresPw : Obligations.CtrCentresPw := by
  unfold Obligations.CtrCentresPw
  refine ⟨by decide, fun s => ⟨s.latch.bounded s.latch.centre, exec_eq_commit .ctr s, ?_⟩⟩
  rw [Latch.centre_natCast, Latch.bounded_toNat]
  refine ⟨rfl, fun hr => ?_⟩
  have := hr.min_le_max
  rw [if_neg (by omega), if_neg (by omega)]

/-- Settles O12: the defaults are the five literals. -/
theorem rstRestoresDefaults : Obligations.RstRestoresDefaults := by
  unfold Obligations.RstRestoresDefaults
  refine ⟨by decide, by decide, fun s => ⟨exec_eq_commit .rst s, fun t h => ?_⟩⟩
  rw [eq_commit_of_exec h]
  exact (by decide : Latch.defaults.dly = 1000)

/-- Settles O13: the equation of `SMIN`, and that no command but `RST` widens the range, in which PW stays. -/
theorem sminLatchesMin : Obligations.SminLatchesMin := by
  unfold Obligations.SminLatchesMin
  refine ⟨⟨by decide, fun s => ⟨exec_eq_commit .smin s, fun t h => ?equation⟩⟩, fun m s hs hm i hi => ?floor⟩
  case equation =>
    rw [eq_commit_of_exec h]
    exact ⟨rfl, fun hs => ⟨interpretInstr_inRange .smin hs, hs.2⟩, id⟩
  case floor =>
    have hr := interpretInstr_inRange i hs
    have hmin := hm.trans (interpretInstr_narrows hs hi).1
    exact ⟨_, exec_eq_commit i s, hr, hmin, hmin.trans hr.1⟩

/-- Settles O14, from the equation of `SMAX`. -/
theorem smaxLatchesMax : Obligations.SmaxLatchesMax := by
  unfold Obligations.SmaxLatchesMax
  refine ⟨by decide, fun s => ⟨exec_eq_commit .smax s, fun t h => ?_⟩⟩
  rw [eq_commit_of_exec h]
  exact ⟨rfl, fun hs => hs.1, Eq.symm⟩

/-- Settles O16. -/
theorem invReportsTheByte : Obligations.InvReportsTheByte := by
  unfold Obligations.InvReportsTheByte
  exact ⟨fun b h => (decodeByte_eq_inv_iff b).mpr h, fun b s => exec_eq_commit (.inv b) s⟩

/-- Settles O17: the two end positions are the bounds, which are in the range. -/
theorem digitZeroIsMinAndNineIsMax : Obligations.DigitZeroIsMinAndNineIsMax := by
  unfold Obligations.DigitZeroIsMinAndNineIsMax
  intro s hle
  have h₀ : s.latch.bounded (s.latch.digitPosition 0) = s.latch.min := by
    rw [Latch.digitPosition_zero, Latch.bounded_word (le_refl _) hle]
  have h₉ : s.latch.bounded (s.latch.digitPosition 9) = s.latch.max := by
    rw [Latch.digitPosition_nine, Latch.bounded_word hle (le_refl _)]
  exact ⟨⟨_, exec_eq_commit .dig0 s, h₀⟩, ⟨_, exec_eq_commit .dig9 s, h₉⟩⟩

/-- Settles O20: each command builds its event from the registers it writes. -/
theorem eventsCarryTheNewValues : Obligations.EventsCarryTheNewValues := by
  unfold Obligations.EventsCarryTheNewValues
  intro i s
  refine ⟨_, exec_eq_commit i s, ?_⟩
  cases i <;> rfl

end Sys2Proof.Machine
end

section
/-! SUPPORT. The obligations of the family `42_pulse_generator.md`: the entry of a pulse slot and its high phase
(spec/42_pulse_generator.md R97, R99, R101). -/

namespace Sys2Proof.Machine

/-- At the entry of PULSE with `rst` low, the step is the start of the slot with the current DLY (R97, R110). -/
theorem step_of_pulseEnter {s : State} (hr : s.env.rst = false) (hl : s.ls = .running) (hp : s.ph = .pulse .enter) :
    step s = .next (s.pwmPulse s.dly) := by
  have hq : s.seqReady = true := by simp [State.seqReady, hl, hp]
  rw [step_of_seqReady hr hq (by rw [hp]; rfl)]
  simp only [State.seqStep, hp]

/-- In a high phase, a tick counts one on the pulse counter and does nothing else to SEQ (R34, R97). -/
theorem State.seqTick_of_high {s : State} {d : Word} (hl : s.ls = .running) (hp : s.ph = .pulse (.high d)) :
    s.seqTick = { s with pulseCtr := s.pulseCtr + 1 } := by
  simp only [State.seqTick, hl, hp]

/-- In a high phase, SEQ's action is the end of it (R97). -/
theorem State.seqStep_of_high {s : State} {d : Word} (hp : s.ph = .pulse (.high d)) : s.seqStep = .next s.pwmEnd := by
  simp only [State.seqStep, hp]

/-- RXU's store of a completed item takes it from those that wait (R65). -/
theorem State.rxuStore_rxDone_length {s : State} (h : s.rxDone ≠ []) :
    s.rxuStore.rxDone.length < s.rxDone.length := by
  obtain ⟨item, rest, hd⟩ := List.exists_cons_of_ne_nil h
  rw [s.rxuStore_cons hd, hd]
  exact Nat.lt_succ_self _

/-- Settles O42: the entry for each DLY, and in the high phase the four movers of a step, of which reset needs `rst` at 1. -/
theorem pulseLastsExactlyDly : Obligations.PulseLastsExactlyDly := by
  unfold Obligations.PulseLastsExactlyDly
  refine ⟨fun s hr hl hp => ⟨fun hd => ?rises, fun hd => ?empty⟩, fun s d hr hl hp hc => ?high⟩
  case rises => rw [step_of_pulseEnter hr hl hp, s.pwmPulse_pos (BitVec.lt_def.mpr hd)]
  case empty =>
    have hz : s.dly = 0 := BitVec.eq_of_toNat_eq hd
    rw [step_of_pulseEnter hr hl hp, hz, s.pwmPulse_zero]
  case high =>
    obtain ⟨t, h⟩ := step_answers_next s
    refine ⟨t, h, fun hrt => ?_⟩
    have hready := State.seqReady_high hl hp
    obtain ⟨-, hrst, -⟩ | ⟨ht, -, hq, ha⟩ | ⟨ht, -, hd, rfl⟩ | ⟨ht, -, hq, rfl⟩ := step_turns h
    · simp [hr] at hrst
    · obtain rfl : s.pwmEnd = t := Host.Outcome.next.inj ((State.seqStep_of_high hp).symm.trans ha)
      exact .inr (.inr ⟨ht, le_antisymm hc (hready.mp hq), rfl, rfl⟩)
    · have hlen := State.rxuStore_rxDone_length hd
      obtain ⟨x, q, k, e⟩ := s.rxuStore_form
      rw [e] at hlen ⊢
      exact .inr (.inl ⟨ht, rfl, rfl, rfl, hlen⟩)
    · have hlt : s.pulseCtr < d.toNat * Config.US_TICKS := by
        rw [← not_le, ← hready, hq]
        nofun
      obtain ⟨-, -, hph, -, -, -, -, hpwm, -, hctr, -⟩ := s.tick_fields (s.tick_env.1.symm.trans hrt)
      rw [State.seqTick_of_high hl hp] at hph hctr
      exact .inl ⟨ht, hlt, hph, hpwm, hctr⟩

end Sys2Proof.Machine
end

section
/-! SUPPORT. Why the loop admits no second event and no second pulse slot before its next refresh wait: what each place of the
loop has had since the last one (spec/43_control_loop.md R104, R112). -/

namespace Sys2Proof.Machine

/-- The feedback events since the last refresh wait, at most, where a trace stands at this place. -/
def TracePos.feedbacks : TracePos → Nat
  | .startup | .waited => 0
  | .told | .faulted | .iterationDone | .halted => 1

/-- The pulse slots since the last refresh wait. Startup counts as an iteration that is over, so that the next wait may follow
exactly where this is 1. -/
def TracePos.pulses : TracePos → Nat
  | .startup | .iterationDone => 1
  | .waited | .told | .faulted | .halted => 0

theorem TracePos.feedbacks_le_one (p : TracePos) : p.feedbacks ≤ 1 := by
  cases p <;> decide

theorem TracePos.pulses_le_one (p : TracePos) : p.pulses ≤ 1 := by
  cases p <;> decide

/-- The loop waits only where an iteration is over (R104, R105). -/
theorem TracePos.next_waited {p q : TracePos} {us : Nat} (h : p.next (.waited us) = some q) :
    q = .waited ∧ p.pulses = 1 := by
  cases p
  case startup | iterationDone =>
    obtain ⟨-, hq⟩ := Option.ite_none_right_eq_some.mp h
    exact ⟨(Option.some.inj hq).symm, rfl⟩
  all_goals cases h

/-- Every other event of the loop keeps the two counts: an event or a pulse slot is counted by the place it leads to. -/
theorem TracePos.next_counts {p q : TracePos} {e : Event} (h : p.next e = some q) (he : e.isWaited = false) :
    p.feedbacks + (if e.isFeedback then 1 else 0) ≤ q.feedbacks ∧ p.pulses + (if e.isPulse then 1 else 0) = q.pulses := by
  unfold TracePos.next at h
  split at h
  case h_2 | h_3 => cases he
  case h_4 ev => cases hf : isStreamFault ev <;> rw [hf] at h <;> cases h <;> exact ⟨le_refl 1, rfl⟩
  case h_5 | h_6 =>
    cases h
    exact ⟨by simp [feedbacks, Event.isFeedback], rfl⟩
  all_goals cases h
  all_goals exact ⟨le_refl _, rfl⟩

/-- A part of a trace with no refresh wait in it has the feedback events and the pulse slots its two ends leave room for. -/
theorem followTrace_counts {p q : TracePos} {es : List Event} (h : followTrace p es = some q)
    (hw : es.countP Event.isWaited = 0) :
    p.feedbacks + es.countP Event.isFeedback ≤ q.feedbacks ∧ p.pulses + es.countP Event.isPulse = q.pulses := by
  induction es generalizing p with
  | nil =>
    cases h
    exact ⟨le_refl _, rfl⟩
  | cons e es ih =>
    obtain ⟨r, hr, hq⟩ := Option.bind_eq_some_iff.mp h
    rw [List.countP_cons] at hw
    obtain ⟨hes, he⟩ := Nat.add_eq_zero_iff.mp hw
    obtain ⟨hf, hp⟩ := TracePos.next_counts hr (by simpa using he)
    obtain ⟨hf', hp'⟩ := ih hq hes
    simp only [List.countP_cons]
    omega

/-- A trace that follows the loop has at most one event and one pulse slot after each refresh wait (R110, R112). -/
theorem oncePerWait_of_followTrace {p : TracePos} {es : List Event} (h : followTrace .startup es = some p) :
    OncePerWait es := by
  rintro before mid after us rfl hw
  rw [List.append_assoc, followTrace_append] at h
  obtain ⟨p₀, -, h₀⟩ := Option.bind_eq_some_iff.mp h
  obtain ⟨p₁, hn, h₁⟩ := Option.bind_eq_some_iff.mp h₀
  obtain ⟨rfl, -⟩ := TracePos.next_waited hn
  obtain ⟨p₂, hm, h₂⟩ := Option.bind_eq_some_iff.mp ((followTrace_append _ mid after).symm.trans h₁)
  obtain ⟨hf, hp⟩ := followTrace_counts hm hw
  simp only [TracePos.feedbacks, TracePos.pulses, Nat.zero_add] at hf hp
  refine ⟨hf.trans p₂.feedbacks_le_one, hp.trans_le p₂.pulses_le_one, ?_⟩
  rintro us' rest rfl
  obtain ⟨p₃, hn', -⟩ := Option.bind_eq_some_iff.mp h₂
  exact hp.trans (TracePos.next_waited hn').2

end Sys2Proof.Machine
end

section
/-! SUPPORT. A step of WAIT and a step of HALTED (spec/43_control_loop.md R105, R111). -/

namespace Sys2Proof.Machine

/-- In WAIT, a tick counts one on the refresh-wait counter and does nothing else to SEQ (R34, R105). -/
theorem State.seqTick_of_wait {s : State} (hl : s.ls = .running) (hp : s.ph = .wait) :
    s.seqTick = { s with waitCtr := s.waitCtr + 1 } := by
  simp only [State.seqTick, hl, hp]

/-- In WAIT, SEQ's action is to record the wait and go on to POLL (R105, R106). -/
theorem State.seqStep_of_wait {s : State} (hp : s.ph = .wait) :
    s.seqStep = .next { s.record (.waited Config.T_WAIT_US) with ph := .poll .sample, waitCtr := 0 } := by
  simp only [State.seqStep, hp]

/-- In HALTED, no timer of SEQ runs (R111). -/
theorem State.seqTick_of_halted {s : State} (hl : s.ls = .halted) : s.seqTick = s := by
  simp only [State.seqTick, hl]

/-- In HALTED, with `rst` low before and after, a step is a store by RXU or a tick (R111). -/
theorem step_of_halted {s t : State} (h : step s = .next t) (hl : s.ls = .halted) (hr : s.env.rst = false)
    (hrt : t.env.rst = false) :
    (s.turn = .rxu ∧ s.rxDone ≠ [] ∧ t = s.rxuStore) ∨ (s.turn = .clock ∧ s.env.nextRst = false ∧ t = s.tick) := by
  obtain ⟨hr', -⟩ | ⟨-, hl', -, -⟩ | hx | ⟨ht, -, hn, rfl⟩ := step_moves h
  · simp [hr, hrt] at hr'
  · simp [hl] at hl'
  · exact .inl hx
  · exact .inr ⟨ht, hn, rfl⟩

/-- RXU's store keeps an item that is in RXH (R65). -/
theorem State.rxuStore_rxh {s : State} {x : RxItem} (h : s.rxh = some x) : s.rxuStore.rxh = some x := by
  unfold State.rxuStore
  split
  · exact h
  · simp [h]

/-- A tick in which `rst` does not rise brings the end of a transmission one tick nearer (R64). -/
theorem State.tick_txRemaining {s : State} (hn : s.env.nextRst = false) (hc : s.txBitCtr < Config.BIT_TICKS) :
    s.tick.txRemaining = s.txRemaining - 1 ∧ s.tick.txBitCtr < Config.BIT_TICKS := by
  obtain ⟨-, -, -, -, -, hx, hb, -⟩ := s.tick_fields hn
  have hrem : s.tick.txRemaining = s.txuTick.txRemaining := by rw [State.txRemaining, State.txRemaining, hx, hb]
  rw [hrem, hb]
  exact s.txuTick_remaining hc

/-- A tick in which `rst` does not rise leaves an empty TXH empty (R64). -/
theorem State.tick_txh_none {s : State} (hn : s.env.nextRst = false) (hx : s.txh = none) : s.tick.txh = none := by
  obtain ⟨-, -, -, -, -, hx', -⟩ := s.tick_fields hn
  rw [hx', State.txuTick_none hx, hx]

end Sys2Proof.Machine
end

section
/-! SUPPORT. The obligations of the family `43_control_loop.md` on a single step. -/

namespace Sys2Proof.Machine

/-- Settles O50: both clauses are clauses of the invariant, kept together because the event in hand becomes the
trace's next. -/
theorem stepsKeepTraceInTheLoop : Obligations.StepsKeepTraceInTheLoop := by
  unfold Obligations.StepsKeepTraceInTheLoop
  exact fun s t hs he h => ⟨step_traceFollowsLoop h hs he, step_eventPending h he⟩

/-- Settles O51: the counts since the last wait, on the trace as it is and as a step leaves it. -/
theorem atMostOneEventAndPulsePerWait : Obligations.AtMostOneEventAndPulsePerWait := by
  unfold Obligations.AtMostOneEventAndPulsePerWait
  refine ⟨fun s ⟨p, hp, _⟩ => oncePerWait_of_followTrace hp, fun s t hs he h => ?_⟩
  obtain ⟨p, hp, -⟩ := step_traceFollowsLoop h hs he
  exact oncePerWait_of_followTrace hp

/-- Settles O26: DISPATCH with its own time passed is SEQ's turn, and its action is `exec` of the decoded byte. -/
theorem stepRunsTheDecodedInstruction : Obligations.StepRunsTheDecodedInstruction := by
  unfold Obligations.StepRunsTheDecodedInstruction
  intro s b i hr hl hp hd
  obtain rfl : decodeByte b = i := (Decoded.instr.inj ((decode_cons b []).symm.trans hd)).1
  refine ⟨_, exec_eq_commit _ s, ?_⟩
  rw [step_of_turn_seq (State.turn_dispatch hr hl hp)]
  simp only [State.seqStep, hp, s.dispatchByte_eq]
  rfl

/-- Settles O44: the four movers of a step in WAIT, of which reset needs `rst` at 1. -/
theorem waitLastsExactly20000Us : Obligations.WaitLastsExactly20000Us := by
  unfold Obligations.WaitLastsExactly20000Us
  intro s hr hl hp hc
  obtain ⟨t, h⟩ := step_answers_next s
  refine ⟨t, h, fun hrt => ?_⟩
  have hready := State.seqReady_wait hl hp
  obtain ⟨-, hrst, -⟩ | ⟨ht, -, hq, ha⟩ | ⟨ht, -, hd, rfl⟩ | ⟨ht, -, hq, rfl⟩ := step_turns h
  · simp [hr] at hrst
  · obtain rfl := Host.Outcome.next.inj ((State.seqStep_of_wait hp).symm.trans ha)
    exact .inr (.inr ⟨ht, le_antisymm hc (hready.mp hq), rfl, rfl⟩)
  · have hlen := State.rxuStore_rxDone_length hd
    obtain ⟨x, q, k, e⟩ := s.rxuStore_form
    rw [e] at hlen ⊢
    exact .inr (.inl ⟨ht, hp, rfl, hlen⟩)
  · have hlt : s.waitCtr < 20000 * Config.US_TICKS := by
      rw [← Config.t_wait_ticks_eq, ← not_le, ← hready, hq]
      nofun
    obtain ⟨-, -, hph, -, -, -, -, -, hctr, -⟩ := s.tick_fields (s.tick_env.1.symm.trans hrt)
    rw [State.seqTick_of_wait hl hp] at hph hctr
    exact .inl ⟨ht, hlt, hph.trans hp, hctr⟩

/-- Settles O47: the two moves HALTED leaves. RXU's store takes a completed item and touches no other part; a tick moves
TXU alone, as far as the block's own registers go. -/
theorem haltedIsTerminal : Obligations.HaltedIsTerminal := by
  unfold Obligations.HaltedIsTerminal
  intro s ⟨hagree, hpwm⟩ hc hl hr
  obtain ⟨t, h⟩ := step_answers_next s
  refine ⟨t, h, fun hrt => ?_⟩
  have hp : s.ph = .stopped := hagree.mp hl
  have hlow : s.pwmOut = false := by rw [hpwm, hp]; rfl
  obtain ⟨ht, hd, rfl⟩ | ⟨ht, hn, rfl⟩ := step_of_halted h hl hr hrt
  · have hlen := State.rxuStore_rxDone_length hd
    have hkeep : ∀ x, s.rxh = some x → s.rxuStore.rxh = some x := fun x => State.rxuStore_rxh
    obtain ⟨x, q, k, e⟩ := s.rxuStore_form
    rw [e] at hlen hkeep ⊢
    exact ⟨hl, hp, rfl, hlow, rfl, rfl, hc, by rw [ht]; rfl, fun _ => hlen,
      fun hx => ⟨hx, by rw [State.txd, hx]⟩, hkeep⟩
  · obtain ⟨hlatch, hl', hph, hfb, hrxh, -, -, ho, -, -, htr, -⟩ := s.tick_fields hn
    obtain ⟨hrem, hctr⟩ := State.tick_txRemaining hn hc
    have hempty : s.txh = none → s.tick.txh = none ∧ s.tick.txd = true := fun hx => by
      have hx' := State.tick_txh_none hn hx
      exact ⟨hx', by rw [State.txd, hx']⟩
    rw [State.seqTick_of_halted hl] at hph
    exact ⟨hl'.trans hl, hph.trans hp, hlatch, ho.trans hlow, htr, hfb, hctr, by rw [if_pos ht, hrem],
      fun hne => absurd ht hne, hempty, fun x hx => hrxh.trans hx⟩

/-- Settles O48: neither move HALTED leaves fills TXH, records or writes the latch. -/
theorem finalRunKeepsItsResult : Obligations.FinalRunKeepsItsResult := by
  unfold Obligations.FinalRunKeepsItsResult
  intro s ⟨hl, hx⟩ hr
  obtain ⟨t, h⟩ := step_answers_next s
  refine ⟨t, h, fun hrt => ?_⟩
  obtain ⟨-, -, rfl⟩ | ⟨-, hn, rfl⟩ := step_of_halted h hl hr hrt
  · obtain ⟨y, q, k, e⟩ := s.rxuStore_form
    rw [e]
    exact ⟨⟨hl, hx⟩, rfl, rfl⟩
  · obtain ⟨hlatch, hl', -, -, -, -, -, -, -, -, htr, -⟩ := s.tick_fields hn
    exact ⟨⟨hl'.trans hl, State.tick_txh_none hn hx⟩, htr, hlatch⟩

end Sys2Proof.Machine
end

section
/-! SUPPORT. One iteration with HOST quiet, in the parts its three outcomes share: the refresh wait and the poll, the read, the
message and the pulse slot (spec/43_control_loop.md R104, R113). -/

namespace Sys2Proof.Machine

/-- A state with HOST quiet stands at its own fields. -/
theorem State.HostQuiet.stands {s : State} (hq : s.HostQuiet) (hl : s.ls = .running) (hb : s.txBitCtr < Config.BIT_TICKS) :
    s.Stands s.latch s.fb s.rxh s.trace s.now s.txRemaining s.ph s.waitCtr s.pulseCtr s.pwmOut :=
  ⟨hq, hl, rfl, rfl, rfl, rfl, rfl, rfl, hb, rfl, rfl, rfl, rfl⟩

section
variable {s : State} {l : Latch} {fb : Option FeedbackEvent} {x : Option RxItem} {tr : List Event} {now rem w p : Nat}
  {pwm : Bool}

/-- An action of SEQ that moves PH alone. -/
theorem State.Stands.goesOn {ph ph' : Phase} (h : s.Stands l fb x tr now rem ph w p pwm) (hr : s.seqReady = true)
    (hq : s.seqStep = .next { s with ph := ph' }) :
    ∃ t : State, s.Reaches t ∧ t.Stands l fb x tr now rem ph' w p pwm :=
  ⟨_, h.act hr hq h.running h.latch h.fb h.rxh h.trace h.rem h.txBitCtr rfl h.waitCtr h.pulseCtr h.pwmOut⟩

/-- A whole refresh wait, in which a transmission under way ends (R105, R72). -/
theorem State.Stands.waitsOut (h : s.Stands l fb x tr now rem .wait 0 p pwm) (hrem : rem ≤ Config.T_WAIT_TICKS) :
    ∃ t : State, s.Reaches t ∧
      t.Stands l fb x (tr ++ [.waited 20000]) (now + 20000 * Config.US_TICKS) 0 (.poll .sample) 0 p pwm := by
  obtain ⟨t, ht, h₁⟩ := h.waits Config.T_WAIT_TICKS (Nat.zero_add _).le
  have hr : t.seqReady = true := (State.seqReady_wait h₁.running h₁.ph).mpr (by rw [h₁.waitCtr, Nat.zero_add])
  obtain ⟨hu, h₂⟩ := h₁.act (tr' := tr ++ [.waited 20000]) hr (State.seqStep_of_wait h₁.ph) h₁.running h₁.latch h₁.fb
    h₁.rxh (by rw [← h₁.trace]; rfl) h₁.rem h₁.txBitCtr rfl rfl h₁.pulseCtr h₁.pwmOut
  rw [Nat.sub_eq_zero_of_le hrem] at h₂
  exact ⟨_, State.reaches_trans ht hu, h₂⟩

/-- The poll draws the own time of the iteration and goes by RXH (R106, R145). -/
theorem State.Stands.polls (h : s.Stands l fb x tr now rem (.poll .sample) w p pwm) :
    ∃ own ≤ Config.T_SEQ_MAX_TICKS, ∃ t : State, s.Reaches t ∧
      t.Stands l fb x tr now rem (if x.isSome then .poll (.read own) else .poll (.nothing own)) w p pwm := by
  have hr : s.seqReady = true := by simp [State.seqReady, h.running, h.ph]
  have hq : s.seqStep = .next s.pollSample := by simp only [State.seqStep, h.ph]
  have hph : s.pollSample.ph =
      if x.isSome then .poll (.read (Config.ownTime s.free)) else .poll (.nothing (Config.ownTime s.free)) := by
    rw [← h.rxh]
    rfl
  exact ⟨_, Config.ownTime_le s.free, _,
    h.act hr hq h.running h.latch h.fb h.rxh h.trace h.rem h.txBitCtr hph h.waitCtr h.pulseCtr h.pwmOut⟩

/-- The read empties RXH and goes where the item says (R107). -/
theorem State.Stands.reads {item : RxItem} {own free : Nat} {ph : Phase}
    (h : s.Stands l fb (some item) tr now rem (.poll (.read own)) w p pwm)
    (he : s.pollRead own = { s with rxh := none, ph := ph, free := free }) :
    ∃ t : State, s.Reaches t ∧ t.Stands l fb none tr now rem ph w p pwm := by
  have hr : s.seqReady = true := by simp [State.seqReady, h.running, h.ph, State.rxAvail, h.rxh]
  have hq : s.seqStep = .next { s with rxh := none, ph := ph, free := free } := by simp only [State.seqStep, h.ph, he]
  exact ⟨_, h.act hr hq h.running h.latch h.fb rfl h.trace h.rem h.txBitCtr rfl h.waitCtr h.pulseCtr h.pwmOut⟩

/-- A whole message with TXH empty takes ten bit-times for each byte but the last (R113). -/
theorem State.Stands.sendsAtRest {place : List Byte → Phase} (hp : place ∈ sendPlaces) (bs : List Byte)
    (h : s.Stands l fb x tr now 0 (place bs) w p pwm) :
    ∃ (t : State) (r : Nat), s.Reaches t ∧
      t.Stands l fb x (tr ++ bs.map .txByte) (now + (bs.length - 1) * (10 * Config.BIT_TICKS)) r (place []) w p pwm := by
  obtain ⟨t, r, ht, h₁⟩ := h.sends hp bs
  refine ⟨t, r, ht, ?_⟩
  cases bs <;> simpa using h₁

/-- DISPATCH with its own time passed: the command is applied (R108). -/
theorem State.Stands.applies {b : Byte} (h : s.Stands l fb x tr now rem (.dispatch b 0) w p pwm) :
    ∃ t : State, s.Reaches t ∧
      t.Stands (interpret l b).1 (some (interpret l b).2) x tr now rem (.feedback .emit) w p pwm := by
  have hr : s.seqReady = true := by simp [State.seqReady, h.running, h.ph]
  have hq : s.seqStep = .next (s.commit (interpret l b)).toFeedback := by
    simp only [State.seqStep, h.ph, s.dispatchByte_eq, h.latch]
  exact ⟨_, h.act hr hq h.running rfl rfl h.rxh h.trace h.rem h.txBitCtr rfl h.waitCtr h.pulseCtr h.pwmOut⟩

/-- The start of FEEDBACK: the event in hand is recorded (R109). -/
theorem State.Stands.emits {ev : FeedbackEvent} (h : s.Stands l (some ev) x tr now rem (.feedback .emit) w p pwm) :
    ∃ t : State, s.Reaches t ∧
      t.Stands l none x (tr ++ [.feedback ev]) now rem (.feedback (.sending (Config.FB_ENCODE ev))) w p pwm := by
  have hr : s.seqReady = true := by simp [State.seqReady, h.running, h.ph]
  have hq : s.seqStep = .next { s.emit ev (fun bs => .feedback (.sending bs)) with fb := none } := by
    simp only [State.seqStep, h.ph, State.emitFeedback_some h.fb]
  exact ⟨_, h.act hr hq h.running h.latch rfl h.rxh (by rw [← h.trace]; rfl) h.rem h.txBitCtr rfl h.waitCtr h.pulseCtr
    h.pwmOut⟩

/-- From DISPATCH to PULSE: the command is applied, its event is recorded, its message is sent (R108, R109). -/
theorem State.Stands.reports {b : Byte} (h : s.Stands l fb x tr now 0 (.dispatch b 0) w p pwm) :
    ∃ (t : State) (r : Nat), s.Reaches t ∧
      t.Stands (interpret l b).1 none x
        (tr ++ [.feedback (interpret l b).2] ++ (Config.FB_ENCODE (interpret l b).2).map .txByte)
        (now + ((Config.FB_ENCODE (interpret l b).2).length - 1) * (10 * Config.BIT_TICKS)) r (.pulse .enter) w p pwm := by
  obtain ⟨t₁, r₁, h₁⟩ := h.applies
  obtain ⟨t₂, r₂, h₂⟩ := h₁.emits
  obtain ⟨t₃, r, r₃, h₃⟩ := h₂.sendsAtRest (mem_sendPlaces.mpr (.inr (.inl rfl)))
  obtain ⟨t, r₄, h₄⟩ := h₃.goesOn (ph' := .pulse .enter) (by simp [State.seqReady, h₃.running, h₃.ph])
    (by simp only [State.seqStep, h₃.ph])
  exact ⟨t, r, State.reaches_trans r₁ (State.reaches_trans r₂ (State.reaches_trans r₃ r₄)), h₄⟩

/-- The stream fault: its event is recorded and its message is sent (R121). -/
theorem State.Stands.diagnoses {kind : FaultKind} (h : s.Stands l fb x tr now 0 (.poll (.faulted kind 0)) w p pwm) :
    ∃ (t : State) (r : Nat), s.Reaches t ∧
      t.Stands l fb x (tr ++ [.feedback (.streamFault kind)] ++ (Config.FB_ENCODE (.streamFault kind)).map .txByte)
        (now + ((Config.FB_ENCODE (.streamFault kind)).length - 1) * (10 * Config.BIT_TICKS)) r (.poll (.faultSending [])) w p
        pwm := by
  have hq : s.seqStep = .next (s.raiseStreamFault kind) := by simp only [State.seqStep, h.ph]
  obtain ⟨ht, h₁⟩ := h.act (tr' := tr ++ [.feedback (.streamFault kind)]) (by simp [State.seqReady, h.running, h.ph]) hq
    h.running h.latch h.fb h.rxh (by rw [← h.trace]; rfl) h.rem h.txBitCtr rfl h.waitCtr h.pulseCtr h.pwmOut
  obtain ⟨u, r, hu, h₂⟩ := h₁.sendsAtRest (mem_sendPlaces.mpr (.inr (.inr rfl)))
  exact ⟨u, r, State.reaches_trans ht hu, h₂⟩

/-- The end of the stream-fault path is a step (R121). -/
theorem State.Stands.halts (h : s.Stands l fb x tr now rem (.poll (.faultSending [])) w p pwm) : s.Reaches s.halt := by
  have hr : s.seqReady = true := by simp [State.seqReady, h.running, h.ph]
  refine State.reaches_step ?_
  rw [step_of_seqReady h.quiet.1 hr (by rw [h.ph]; rfl)]
  simp only [State.seqStep, h.ph]

end

/-- From the start of WAIT with HOST quiet, the block comes through its refresh wait and its poll, with TXH empty and the own
time of the iteration drawn (R104 to R106, R145). -/
theorem State.HostQuiet.waitsAndPolls {s : State} (hq : s.HostQuiet) (hl : s.ls = .running) (hp : s.ph = .wait)
    (hw : s.waitCtr = 0) (hb : s.txBitCtr < Config.BIT_TICKS) :
    ∃ own ≤ Config.T_SEQ_MAX_TICKS, ∃ t : State, s.Reaches t ∧
      t.Stands s.latch s.fb s.rxh (s.trace ++ [.waited 20000]) (s.now + 20000 * Config.US_TICKS) 0
        (if s.rxh.isSome then .poll (.read own) else .poll (.nothing own)) 0 s.pulseCtr s.pwmOut := by
  have h := hq.stands hl hb
  rw [hp, hw] at h
  obtain ⟨t, ht, h₁⟩ := h.waitsOut (s.txRemaining_le.trans Config.frame_lt_wait.le)
  obtain ⟨own, ho, u, hu, h₂⟩ := h₁.polls
  exact ⟨own, ho, u, State.reaches_trans ht hu, h₂⟩

end Sys2Proof.Machine
end

section
/-! SUPPORT. The obligations of the family `43_control_loop.md` on a whole iteration. -/

namespace Sys2Proof.Machine

/-- Settles O53: the wait, the own time after an empty poll, and the pulse slot. -/
theorem idleIterationPeriod : Obligations.IdleIterationPeriod := by
  unfold Obligations.IdleIterationPeriod
  intro s hq hl hp hw hx hb
  obtain ⟨own, ho, t₁, r₁, h₁⟩ := hq.waitsAndPolls hl hp hw hb
  rw [hx] at h₁
  obtain ⟨t₂, r₂, h₂⟩ := h₁.spends (b := 0) (kind := .endOfStream) (place := fun n => .poll (.nothing n))
    (.head _) own
  obtain ⟨t₃, r₃, h₃⟩ := h₂.goesOn (ph' := .pulse .enter) (by simp [State.seqReady, h₂.running, h₂.ph])
    (by simp only [State.seqStep, h₂.ph])
  obtain ⟨t, _, _, _, r₄, h⟩ := h₃.pulses
  obtain ⟨k, hk⟩ := State.reaches_trans r₁ (State.reaches_trans r₂ (State.reaches_trans r₃ r₄))
  exact ⟨k, own, t, hk, ho, h.ph, h.waitCtr, h.running, h.latch, h.quiet, h.rxh,
    by rw [h.trace, List.append_assoc]; rfl, h.now⟩

/-- Settles O54: the wait, the read of the byte, the own time, the command with its report, and the pulse slot. -/
theorem commandIterationPeriod : Obligations.CommandIterationPeriod := by
  unfold Obligations.CommandIterationPeriod
  intro s b hq hl hp hw hx hb
  obtain ⟨own, ho, t₁, r₁, h₁⟩ := hq.waitsAndPolls hl hp hw hb
  rw [hx] at h₁
  obtain ⟨t₂, r₂, h₂⟩ := h₁.reads (t₁.pollRead_byte own h₁.rxh)
  obtain ⟨t₃, r₃, h₃⟩ := h₂.spends (b := b) (kind := .endOfStream) (place := fun n => .dispatch b n)
    (.tail _ (.head _)) own
  rw [Nat.zero_sub] at h₃
  obtain ⟨t₄, _, r₄, h₄⟩ := h₃.reports
  obtain ⟨t, _, _, _, r₅, h⟩ := h₄.pulses
  have hd : t.dly = (interpret s.latch b).1.dly := by rw [State.dly, h.latch]
  obtain ⟨k, hk⟩ :=
    State.reaches_trans r₁ (State.reaches_trans r₂ (State.reaches_trans r₃ (State.reaches_trans r₄ r₅)))
  exact ⟨k, own, t, hk, ho, h.ph, h.waitCtr, h.running, h.latch, h.quiet, h.rxh, by rw [h.trace, hd]; simp,
    by rw [h.now, hd]⟩

/-- Settles O55: the wait, the read of the fault's item, the own time, the report of the fault, and the halt. -/
theorem faultIterationHalts : Obligations.FaultIterationHalts := by
  unfold Obligations.FaultIterationHalts
  intro s kind hq hl hp hw hpwm hx hb
  have hx' : s.rxh = some (faultItem kind) := hx.trans (by cases kind <;> rfl)
  obtain ⟨own, ho, t₁, r₁, h₁⟩ := hq.waitsAndPolls hl hp hw hb
  rw [hx'] at h₁
  obtain ⟨t₂, r₂, h₂⟩ := h₁.reads (t₁.pollRead_fault own h₁.rxh)
  obtain ⟨t₃, r₃, h₃⟩ := h₂.spends (b := 0) (kind := kind) (place := fun n => .poll (.faulted kind n))
    (.tail _ (.tail _ (.head _))) own
  rw [Nat.zero_sub] at h₃
  obtain ⟨t, _, r₄, h⟩ := h₃.diagnoses
  obtain ⟨k, hk⟩ :=
    State.reaches_trans r₁ (State.reaches_trans r₂ (State.reaches_trans r₃ (State.reaches_trans r₄ h.halts)))
  exact ⟨k, own, t.halt, hk, ho, rfl, rfl, h.latch, h.quiet, h.rxh, h.pwmOut.trans hpwm, by simp [h.trace], h.now⟩

end Sys2Proof.Machine
end

section
/-! SUPPORT. Which commands are out of range and what they then write (spec/60_exceptions.md R117), and a step in which a
tick passes, under reset or not (spec/70_reset_and_hazards.md R129, R130). -/

namespace Sys2Proof.Machine

/-- Out of range: `DEC` with its candidate below MIN, or `INC` with its candidate above MAX, as it is wherever it is above
`REP_MAX` (R117). -/
theorem commandCause_eq_outOfRange_iff (i : Instr) (l : Latch) :
    commandCause i l = some .outOfRange ↔
      (i = .dec ∧ l.decCandidate < l.min.int) ∨ (i = .inc ∧ l.max.int < l.incCandidate) := by
  cases i with
  | inc =>
    have hmax : Config.REP_MAX < l.incCandidate → l.max.int < l.incCandidate := (Word.int_le l.max).trans_lt
    simp [commandCause, or_iff_right_of_imp hmax]
  | _ => simp [commandCause]

/-- `DEC` with its candidate below MIN writes MIN (R80). -/
theorem interpretDec_of_lt_min {l : Latch} (h : l.decCandidate < l.min.int) :
    interpretDec l = ({ l with pw := l.min }, .width l.min) := by
  obtain ⟨-, e⟩ | ⟨hge, -⟩ | ⟨hge, -⟩ := l.bounded_cases l.decCandidate
  · rw [interpretDec, e]
  · exact absurd h hge.not_gt
  · exact absurd h hge.not_gt

/-- In range, `INC` with its candidate above MAX and not above `REP_MAX` writes MAX (R81). -/
theorem interpretInc_of_gt_max {l : Latch} (hl : l.InRange) (h : l.max.int < l.incCandidate)
    (hrep : l.incCandidate ≤ 65535) : interpretInc l = ({ l with pw := l.max }, .width l.max) := by
  have hmin : l.min.int ≤ l.max.int := Int.ofNat_le.mpr hl.min_le_max
  rw [interpretInc_applied l hrep]
  obtain ⟨hlt, -⟩ | ⟨-, -, e⟩ | ⟨-, hle, -⟩ := l.bounded_cases l.incCandidate
  · exact absurd hlt (hmin.trans h.le).not_gt
  · rw [e]
  · exact absurd h hle.not_gt

/-- Where a tick passes, HOST's side makes its own tick, and where that puts `rst` at 1 the block is at its reset values. -/
theorem step_of_ticks {s : State} (h : s.turn = .clock ∨ s.turn = .reset) :
    ∃ t, step s = .next t ∧ t.env = s.hostTick.env ∧
      (s.env.nextRst = true → t = { State.reset with free := s.free, env := t.env }) := by
  obtain h | h := h
  · refine ⟨s.tick, step_of_turn_clock h, s.tick_hostEnv, fun hn => ?_⟩
    obtain ⟨e, he, -⟩ := s.tick_of_high hn
    rw [he]
  · exact ⟨s.resetTick, by simp only [step, h], by rw [s.resetTick_eq], fun _ => by rw [s.resetTick_eq]⟩

end Sys2Proof.Machine
end

section
/-! SUPPORT. The obligations of the family `60_exceptions.md`. -/

namespace Sys2Proof.Machine

/-- Settles O4: a tick takes HOST's next level of `rst`, and at 1 the state is the reset state but for HOST's side. -/
theorem plannedResetIsAsserted : Obligations.PlannedResetIsAsserted := by
  unfold Obligations.PlannedResetIsAsserted
  intro s h
  obtain ⟨t, ht, henv, hreset⟩ := step_of_ticks h
  refine ⟨t, ht, ?_, ?_, ?_, fun hn => ?_⟩
  · rw [henv, State.hostTick_rst]
  · rw [henv, State.hostTick_rstPlan]
  · rw [henv, State.hostTick_rstMore]
  · rw [hreset hn]
    exact ⟨rfl, rfl, rfl, rfl, rfl⟩

/-- Settles O24: only `DEC` and `INC` can be out of range; `DEC` is floored, `INC` is clamped or skipped, as its candidate
is up to 65535 or above. -/
theorem outOfRangeIsRecoveredSilently : Obligations.OutOfRangeIsRecoveredSilently := by
  unfold Obligations.OutOfRangeIsRecoveredSilently
  intro i s hs
  rw [commandCause_eq_outOfRange_iff]
  have hdec := s.latch.decCandidate_eq
  have hinc := s.latch.incCandidate_eq
  have hmax := Word.int_le s.latch.max
  simp only [Word.int] at hdec hinc hmax
  refine ⟨?cases, ?recovery⟩
  case cases =>
    simp only [Word.int, hdec, hinc]
    constructor
    · rintro (h | ⟨rfl, h⟩)
      · exact .inl h
      · by_cases hrep : s.latch.pw.toNat + s.latch.inc.toNat ≤ 65535
        · exact .inr (.inl ⟨rfl, by omega, hrep⟩)
        · exact .inr (.inr ⟨rfl, by omega⟩)
    · rintro (h | ⟨rfl, h, -⟩ | ⟨rfl, h⟩)
      · exact .inl h
      · exact .inr ⟨rfl, by omega⟩
      · exact .inr ⟨rfl, by omega⟩
  case recovery =>
    rintro (⟨rfl, h⟩ | ⟨rfl, h⟩)
    · refine ⟨s.latch.min, ?_, fun _ => rfl, nofun, nofun⟩
      rw [exec_eq_commit, interpretInstr, interpretDec_of_lt_min h]
      rfl
    · by_cases hrep : s.latch.incCandidate ≤ 65535
      · refine ⟨s.latch.max, ?_, nofun, fun _ _ => rfl, fun _ _ => by omega⟩
        rw [exec_eq_commit, interpretInstr, interpretInc_of_gt_max hs h hrep]
        rfl
      · refine ⟨s.latch.pw, ?_, nofun, fun _ _ => by omega, fun _ _ => rfl⟩
        rw [exec_eq_commit, interpretInstr, interpretInc_skipped s.latch (not_le.mp hrep)]
        rfl

end Sys2Proof.Machine
end

section
/-! SUPPORT. Startup with HOST quiet, from its entry to the first refresh wait (spec/70_reset_and_hazards.md R133). -/

namespace Sys2Proof.Machine

/-- A quiet HOST beside the block at its reset values, with TXH empty and nothing in hand (R36, R131). -/
theorem State.reset_quiet_stands :
    ({ State.reset with env := .quiet } : State).Stands State.reset.latch none none [] 0 0 (.startup .enter) 0 0 false :=
  State.HostQuiet.stands ⟨rfl, rfl, rfl, rfl, rfl, rfl, rfl, rfl, rfl⟩ rfl Config.bit_ticks_pos

section
variable {s : State} {l : Latch} {fb : Option FeedbackEvent} {x : Option RxItem} {tr : List Event} {now rem w p : Nat}
  {pwm : Bool}

/-- The startup hold, from its entry to WAIT (R133, log entry 17). -/
theorem State.Stands.holdsOut (h : s.Stands l fb x tr now rem (.startup (.holding 0)) w p pwm) :
    ∃ (t : State) (r : Nat), s.Reaches t ∧
      t.Stands l fb x tr (now + Config.T_STARTUP_US * Config.US_TICKS) r .wait 0 p pwm := by
  obtain ⟨t, r, ht, h₁⟩ := h.holds Config.T_STARTUP_TICKS (Nat.zero_add _)
  have hr : t.seqReady = true := by simp [State.seqReady, h₁.running, h₁.ph]
  have hq : t.seqStep = .next { t.startWait with ls := .running } := by simp only [State.seqStep, h₁.ph]
  obtain ⟨hu, h₂⟩ := h₁.act hr hq rfl h₁.latch h₁.fb h₁.rxh h₁.trace h₁.rem h₁.txBitCtr rfl rfl h₁.pulseCtr h₁.pwmOut
  exact ⟨_, r, State.reaches_trans ht hu, h₂⟩

/-- The whole startup with TXH empty: its message is sent, and from the hand-over of the last byte the hold passes (R133). -/
theorem State.Stands.startsUp (h : s.Stands l fb x tr now 0 (.startup .enter) w p pwm) :
    ∃ (t : State) (r : Nat), s.Reaches t ∧
      t.Stands l fb x (tr ++ Config.STARTUP_TX.map .txByte)
        (now + (Config.STARTUP_TX.length - 1) * (10 * Config.BIT_TICKS) + Config.T_STARTUP_US * Config.US_TICKS) r .wait 0 p
        pwm := by
  obtain ⟨t₁, r₁, h₁⟩ := h.goesOn (ph' := .startup (.sending Config.STARTUP_TX))
    (by simp [State.seqReady, h.running, h.ph]) (by simp only [State.seqStep, h.ph])
  obtain ⟨t₂, _, r₂, h₂⟩ := h₁.sendsAtRest (mem_sendPlaces.mpr (.inl rfl))
  obtain ⟨t₃, r₃, h₃⟩ := h₂.goesOn (ph' := .startup (.holding 0)) (by simp [State.seqReady, h₂.running, h₂.ph])
    (by simp only [State.seqStep, h₂.ph])
  obtain ⟨t, r, r₄, h₄⟩ := h₃.holdsOut
  exact ⟨t, r, State.reaches_trans r₁ (State.reaches_trans r₂ (State.reaches_trans r₃ r₄)), h₄⟩

end

end Sys2Proof.Machine
end

section
/-! SUPPORT. The obligations of the family `70_reset_and_hazards.md`. -/

namespace Sys2Proof.Machine

/-- Settles O3: a tick under reset and one in which `rst` rises leave the reset state; SEQ's actions, RXU's store and any
other tick have `rst` at 0 on both sides. -/
theorem resetOverridesEveryState : Obligations.ResetOverridesEveryState := by
  unfold Obligations.ResetOverridesEveryState
  intro s t h hr
  obtain ⟨-, -, rfl⟩ | ⟨-, hs, -, ha⟩ | ⟨-, hs, -, rfl⟩ | ⟨-, hs, -, rfl⟩ := step_turns h
  · rw [s.resetTick_eq]
  · obtain ⟨henv, -⟩ := State.seqStep_keeps ha
    simp [henv, hs] at hr
  · obtain ⟨x, q, k, e⟩ := s.rxuStore_form
    simp [e, hs] at hr
  · have hn : s.env.nextRst = true := by simpa [hs, s.tick_env.1] using hr
    obtain ⟨e, he, -⟩ := s.tick_of_high hn
    rw [he]

/-- Settles O52: the startup from the reset state with HOST quiet. -/
theorem startupReachesTheLoop : Obligations.StartupReachesTheLoop := by
  unfold Obligations.StartupReachesTheLoop
  obtain ⟨t, _, ⟨k, hk⟩, h⟩ := State.reset_quiet_stands.startsUp
  exact ⟨k, t, hk, h.ph, h.waitCtr, h.running, h.latch, h.pwmOut, h.trace, by rw [h.now, Nat.zero_add]⟩

end Sys2Proof.Machine
end
